-- ==== Sys2Proof/Word.lean ====
section
/-! DEFINITION. The word types of the block: a stored bit (R16), a stored byte (R17), the 32-bit word of the
port and of a command (R30, R50), and the 64-bit integer registers (R5). -/

namespace Sys2Proof

/-- One stored bit (R16, 93 U8: two-valued by construction). -/
abbrev Bit := BitVec 1

/-- One stored byte (R17). -/
abbrev Byte := BitVec 8

/-- A 32-bit word: port data (R30) or a command word (R50). -/
abbrev Word := BitVec 32

/-- A 64-bit integer register (`XLEN = 64`, R5). -/
abbrev DWord := BitVec 64

end Sys2Proof
end

