-- ==== Sys2Proof/Syntax.lean ====
section
/-! DEFINITION. The seven commands of `spec/opcode_table.json` (R55), with the operands that travel in the command
word (R60). `x` and the two sequences do not travel in it (R63). -/

namespace Sys2Proof

/-- A command of the block. A length `alpha` is a number; `WellFormed` holds it to its 16-bit field (log 14). -/
inductive Instr where
  /-- `I2BITS alpha` (R71). -/
  | i2bits (alpha : Nat)
  /-- `BITS2I alpha` (R73). -/
  | bits2i (alpha : Nat)
  /-- `I2BYTES alpha` (R81); `alpha` counts bytes. -/
  | i2bytes (alpha : Nat)
  /-- `BITS2BYTES` (R91). -/
  | bits2bytes
  /-- `BYTES2BITS` (R93). -/
  | bytes2bits
  /-- `C3B b0, b1, b2` (R101). -/
  | c3b (b0 b1 b2 : Byte)
  /-- `CHB b, eta` (R111). -/
  | chb (b eta : Byte)
  deriving DecidableEq, Repr

end Sys2Proof
end

