-- ==== Sys2Proof/WellFormed.lean ====
section
/-! DEFINITION. Which commands can be assembled: `alpha` is `0 .. 65535` (R51, R60); the byte operands are bytes by
their type (R53, R54). -/

namespace Sys2Proof

/-- The operands fit their fields (R60: "An operand outside its range cannot be assembled"). -/
def Instr.wf : Instr → Bool
  | .i2bits alpha => decide (alpha < 65536)
  | .bits2i alpha => decide (alpha < 65536)
  | .i2bytes alpha => decide (alpha < 65536)
  | .bits2bytes => true
  | .bytes2bits => true
  | .c3b _ _ _ => true
  | .chb _ _ => true

end Sys2Proof
end

