-- ==== Sys2Proof/Decode.lean ====
section
/-! DEFINITION. Command words: the fields of a word (00_scope section 6, R50 to R54), the total decoder (R59), and
the encoder (R60). -/

namespace Sys2Proof

/-- Why a word is reserved (R56). -/
inductive Reserved where
  /-- `RSV`, bits 27:24, is not 0. -/
  | rsvNotZero
  /-- `OPC` is 0 or at least 8. -/
  | opcode
  /-- The must-be-zero field `Z` of the format is not 0. -/
  | zNotZero
  deriving DecidableEq, Repr

/-- `w[hi:lo]`, the unsigned integer `(w div 2^lo) mod 2^(hi-lo+1)` (00_scope section 6). -/
def field (w : Word) (hi lo : Nat) : Nat := w.toNat / 2 ^ lo % 2 ^ (hi - lo + 1)

/-- A byte operand at bits `lo+7:lo` (R53, R54; unsigned, not scaled, R63). -/
def byteField (w : Word) (lo : Nat) : Byte := BitVec.ofNat 8 (field w (lo + 7) lo)

/-- The total decoder (R59): `RSV` first, then the opcode, then the format's must-be-zero field. -/
def decode (w : Word) : Except Reserved Instr :=
  if field w 27 24 ≠ 0 then .error .rsvNotZero
  else match field w 31 28 with
    | 1 => if field w 23 16 ≠ 0 then .error .zNotZero else .ok (.i2bits (field w 15 0))
    | 2 => if field w 23 16 ≠ 0 then .error .zNotZero else .ok (.bits2i (field w 15 0))
    | 3 => if field w 23 16 ≠ 0 then .error .zNotZero else .ok (.i2bytes (field w 15 0))
    | 4 => if field w 23 0 ≠ 0 then .error .zNotZero else .ok .bits2bytes
    | 5 => if field w 23 0 ≠ 0 then .error .zNotZero else .ok .bytes2bits
    | 6 => .ok (.c3b (byteField w 0) (byteField w 8) (byteField w 16))
    | 7 => if field w 23 16 ≠ 0 then .error .zNotZero else .ok (.chb (byteField w 0) (byteField w 8))
    | _ => .error .opcode

/-- The word of a command (R60, column "word"); for a command that is not well-formed it stands for nothing. -/
def encode : Instr → Word
  | .i2bits alpha => BitVec.ofNat 32 (0x10000000 + alpha)
  | .bits2i alpha => BitVec.ofNat 32 (0x20000000 + alpha)
  | .i2bytes alpha => BitVec.ofNat 32 (0x30000000 + alpha)
  | .bits2bytes => BitVec.ofNat 32 0x40000000
  | .bytes2bits => BitVec.ofNat 32 0x50000000
  | .c3b b0 b1 b2 => BitVec.ofNat 32 (0x60000000 + 65536 * b2.toNat + 256 * b1.toNat + b0.toNat)
  | .chb b eta => BitVec.ofNat 32 (0x70000000 + 256 * eta.toNat + b.toNat)

/-- The assembler of R60: no word for an operand outside its range. -/
def assemble (i : Instr) : Option Word := if i.wf then some (encode i) else none

/-- The command the decoder reads from the `nbits` low bits of `w`, numbered as `spec/opcode_table.json` numbers
them, every higher bit 0. A command is one 32-bit word (R50), so nothing is laid out in bytes (log 13). -/
def decodeTableWord (nbits w : Nat) : Option Instr :=
  match decode (BitVec.ofNat 32 (w % 2 ^ nbits)) with
  | .ok i => some i
  | .error _ => none

end Sys2Proof
end

