-- ==== Sys2Proof/Config.lean ====
section
/-! DEFINITION. What is fixed for one block: the modulus `Q` (R3), the buffer capacity `NMAX` with `LMAX` (R6), and
the one value the spec leaves unspecified at run time (R14). The configuration stands in `State.cfg` so that
statements hold for every admissible `Q` and `NMAX` (log 2). -/

namespace Sys2Proof

/-- The build-time parameters (R3, R6; 10_state section 1). -/
structure Config where
  /-- `Q`, the prime modulus (R3). -/
  q : Nat
  /-- `NMAX`, the capacity of the byte buffer in bytes (R6). -/
  nmax : Nat
  deriving DecidableEq, Repr

/-- `LMAX = 8 * NMAX`, the capacity of the bit buffer in bits (R6). -/
def Config.lmax (c : Config) : Nat := 8 * c.nmax

/-- The admissible parameters: `1 <= Q <= 2^23` (R3) and `8 <= NMAX <= 1024` (R6). -/
def Config.wf (c : Config) : Bool :=
  decide (1 ≤ c.q ∧ c.q ≤ 8388608 ∧ 8 ≤ c.nmax ∧ c.nmax ≤ 1024)

/-- The defaults: `Q = 2^23 - 2^13 + 1 = 8380417` (R3), `NMAX = 64` (R6). -/
def Config.standard : Config := { q := 8380417, nmax := 64 }

/-- The `n`-th unspecified word a run draws: what a host reads from `COEF` while `VALID = 0` (R14, 93 U1).
A free value: it has no body, so nothing can be proved of it (log 3). -/
opaque Config.freeWord : Nat → Word

end Sys2Proof
end

