-- ==== Sys2Proof/Machine/State.lean ====
section
/-! DEFINITION. The state of the block as plain data (R10), the pins of one clock cycle (R30), the reasons a step can
stop, and the state after reset (R27). -/

namespace Sys2Proof.Machine

/-- The six fault causes (R124). Their codes are `Cause.code`. -/
inductive Cause where
  /-- 1: a write of a reserved word to `CMD` (R56). -/
  | illegalCmd
  /-- 2: a length above a buffer's capacity (R39, R71, R81). -/
  | capacity
  /-- 3: `BITS2I alpha` with `alpha > BLEN` (R73). -/
  | shortInput
  /-- 4: `BITS2I alpha` with `64 < alpha <= BLEN` (R73). -/
  | width
  /-- 5: an element write at or beyond the length (R37, R38). -/
  | indexRange
  /-- 6: an element write of a value that does not fit the element (R37, R38). -/
  | elemRange
  deriving DecidableEq, Repr

/-- The input pins in one clock cycle (R30) with the reset input (R140). -/
structure PortIn where
  /-- Synchronous reset, active high (R140). -/
  rst : Bool
  /-- 1 in a cycle that carries an access. -/
  sel : Bool
  /-- With `sel`: 1 for a write, 0 for a read. -/
  we : Bool
  /-- The word index: the byte offset is `4 * addr`. -/
  addr : BitVec 14
  /-- Write data. -/
  wdata : Word
  deriving DecidableEq, Repr

/-- The content of one word of the address map (R32). -/
inductive Slot where
  | cmd
  | status
  | xLo
  | xHi
  | rintLo
  | rintHi
  | coef
  | blen
  | nlen
  /-- `BYTES[i]` (R35). -/
  | byteElem (i : Nat)
  /-- `BITS[i]` (R35). -/
  | bitElem (i : Nat)
  | unmapped
  deriving DecidableEq, Repr

/-- The state of the block. The fields `x` to `bytes` are the ten elements of R10: `coef` is the pair `VALID`, `COEF`
and `fault` the pair `ERR`, `CAUSE`, as 10_state section 1 writes them; `BLEN` and `NLEN` are the lists' lengths
(log 4). The other fields are the model's own (logs 1, 2, 3, 5, 6). -/
structure State where
  /-- The build-time parameters; no step changes them (R3, R6, R24; log 2). -/
  cfg : Config
  /-- A reset has happened since power-up (R141; log 6). -/
  ready : Bool
  /-- `X`, the integer operand (R11). -/
  x : DWord
  /-- `RINT`, the integer result (R12). -/
  rint : DWord
  /-- `none`: `VALID = 0`, `COEF` holds no value; `some c`: `VALID = 1`, `COEF = c` (R13, R14). -/
  coef : Option Word
  /-- `none`: `ERR = 0`, `CAUSE = 0`; `some c`: `ERR = 1` and `CAUSE` is the code of `c` (R15). -/
  fault : Option Cause
  /-- `BITS`, index 0 first (R16). -/
  bits : List Bit
  /-- `BYTES`, index 0 first (R17). -/
  bytes : List Byte
  /-- What the port drove on `rdata` in the cycle just performed (R30, R31; log 5). -/
  rdata : Word
  /-- The cycles the host is going to drive, the next one first (R44; log 1). -/
  host : List PortIn
  /-- How many free words have been drawn (R14; log 3). -/
  draws : Nat
  deriving DecidableEq, Repr

/-- There is no reason to stop with a fault: the spec's faults are states the block goes on from, so they are NEXT
states here (R125, R127), and no access the port can express lies outside the address map (R32, R41). Nothing raises
a `Fault`, which is safe (log 10). -/
inductive Fault : Type
  deriving DecidableEq, Repr

/-- The reasons to refuse a step. -/
inductive Refusal where
  /-- A command that has no meaning in the model yet. No arm of `exec` raises it. Safe. -/
  | notModelled (mnemonic : String)
  /-- `step`, when `Q` or `NMAX` is outside its range (R3, R6; 93 U10: "`refuse` outside it"). Safe (log 2). -/
  | configOutOfRange
  /-- `step`, when the host accesses the block before the first reset (R141; 93 U2: "`refuse`"). Safe (log 6). -/
  | accessBeforeReset
  deriving DecidableEq, Repr

/-- What a step or a meaning answers. -/
abbrev Result := Host.Outcome State Fault Refusal

/-- The block right after reset (R27, R141), with the default parameters (R3, R6) and no cycle driven yet (log 1). -/
def State.reset : State :=
  { cfg := Config.standard, ready := true, x := 0, rint := 0, coef := none, fault := none, bits := [], bytes := [],
    rdata := 0, host := [], draws := 0 }

end Sys2Proof.Machine
end

