-- ==== Sys2Proof/Machine/Ops.lean ====
section
/-! DEFINITION. The named operations on the state: the two lengths, the guard of the faulted state (R127), fault
entry (R125), the writes of each element, and reset (R140). -/

namespace Sys2Proof.Machine

/-- `BLEN = len(BITS)` (R16). -/
def State.blen (s : State) : Nat := s.bits.length

/-- `NLEN = len(BYTES)` (R17). -/
def State.nlen (s : State) : Nat := s.bytes.length

/-- The form the block's stored sequences keep: `BLEN <= LMAX` and `NLEN <= NMAX` (R16, R17, R23). The block has no
other memory (log 9). -/
def Memory.wf (s : State) : Bool :=
  decide (s.bits.length ≤ s.cfg.lmax) && decide (s.bytes.length ≤ s.cfg.nmax)

/-- The frozen state: a host write or command has its effect `t` only while `ERR = 0` (R127). -/
def whileRunning (s t : State) : State :=
  match s.fault with
  | some _ => s
  | none => t

/-- `raise Fault(c)`: `ERR` and `CAUSE` are set and nothing else changes (R125). Control goes nowhere: the block runs
no code. There is no return from it but reset (R128). -/
def raise (c : Cause) (s : State) : State := { s with fault := some c }

/-- `BITS <- v`, length included (R16). -/
def setBits (v : List Bit) (s : State) : State := { s with bits := v }

/-- `BYTES <- v`, length included (R17). -/
def setBytes (v : List Byte) (s : State) : State := { s with bytes := v }

/-- `RINT <- v` (R12). -/
def setRint (v : Nat) (s : State) : State := { s with rint := BitVec.ofNat 64 v }

/-- `VALID` and `COEF` from an optional coefficient code (R13, R14). -/
def setCoef (v : Option Word) (s : State) : State := { s with coef := v }

/-- A host write of `v` to `X_LO`: `X <- (X div 2^32) * 2^32 + v`, bits 63:32 kept (R11, R34). -/
def setXLo (v : Word) (s : State) : State := { s with x := s.x.extractLsb' 32 32 ++ v }

/-- A host write of `v` to `X_HI`: `X <- v * 2^32 + (X mod 2^32)`, bits 31:0 kept (R11, R34). -/
def setXHi (v : Word) (s : State) : State := { s with x := v ++ s.x.extractLsb' 0 32 }

/-- A host write of `n` to `BLEN` (R39). -/
def writeBlen (n : Word) (s : State) : State :=
  if n.toNat > s.cfg.lmax then raise .capacity s else setBits (List.replicate n.toNat 0) s

/-- A host write of `n` to `NLEN` (R39). -/
def writeNlen (n : Word) (s : State) : State :=
  if n.toNat > s.cfg.nmax then raise .capacity s else setBytes (List.replicate n.toNat 0) s

/-- A host write of `v` to `BITS[i]` (R37). -/
def writeBitElem (i : Nat) (v : Word) (s : State) : State :=
  if i ≥ s.blen then raise .indexRange s
  else if v.toNat > 1 then raise .elemRange s
  else setBits (s.bits.set i (BitVec.ofNat 1 v.toNat)) s

/-- A host write of `v` to `BYTES[i]` (R38). -/
def writeByteElem (i : Nat) (v : Word) (s : State) : State :=
  if i ≥ s.nlen then raise .indexRange s
  else if v.toNat > 255 then raise .elemRange s
  else setBytes (s.bytes.set i (BitVec.ofNat 8 v.toNat)) s

/-- What the port drives on `rdata` in this cycle (R31). -/
def driveRdata (v : Word) (s : State) : State := { s with rdata := v }

/-- A fresh unspecified word on `rdata` (R14, 93 U1; log 3). -/
def driveFreeWord (s : State) : State :=
  { s with rdata := Config.freeWord s.draws, draws := s.draws + 1 }

/-- The reset edge (R140): the elements of R10 take the values of R27 and `rdata` is 0. The parameters, the host's
further cycles and the draws are no state of the block and stay (log 16). -/
def resetBlock (s : State) : State :=
  { State.reset with cfg := s.cfg, host := s.host, draws := s.draws }

end Sys2Proof.Machine
end

