-- ==== Sys2Proof/Machine/Operands.lean ====
section
/-! DEFINITION. The operand forms (R63): the integer in `X`, the two sequences in the buffers, and the 3-byte window
of the command word. -/

namespace Sys2Proof.Machine

/-- The integer operand `x`, unsigned (R11, R63). -/
def State.intOperand (s : State) : Nat := s.x.toNat

/-- The bit sequence operand: the whole of `BITS`, its length its own (R16, R52). -/
def State.bitsOperand (s : State) : List Bit := s.bits

/-- The byte sequence operand: the whole of `BYTES` (R17, R52). -/
def State.bytesOperand (s : State) : List Byte := s.bytes

/-- The 23-bit candidate of a 3-byte window: the top bit of `b2` is taken off first (R100). -/
def candidate (b0 b1 b2 : Byte) : Nat :=
  65536 * (if b2.toNat ≥ 128 then b2.toNat - 128 else b2.toNat) + 256 * b1.toNat + b0.toNat

end Sys2Proof.Machine
end

