-- ==== Sys2Proof/Machine/IntBit.lean ====
section
/-! DEFINITION. The integer-to-bit converter: `integer_to_bits` and `bits_to_integer` on numbers (R70, R72) and the
commands `I2BITS` and `BITS2I` (R71, R73). -/

namespace Sys2Proof.Machine

/-- `integer_to_bits(x, alpha) = [ (x div 2^i) mod 2 | i = 0 .. alpha-1 ]` (R70). -/
def integerToBits (x alpha : Nat) : List Bit :=
  (List.range alpha).map fun i => BitVec.ofNat 1 (x / 2 ^ i)

/-- `bits_to_integer(bits, alpha)` (R72): doubling and adding from element `alpha - 1` down to element 0. The function
is the spec's where `alpha <= len(bits)`; the command faults elsewhere. -/
def bitsToInteger (bits : List Bit) (alpha : Nat) : Nat :=
  (bits.take alpha).foldr (fun b x => 2 * x + b.toNat) 0

/-- `I2BITS alpha` (R71). -/
def execI2bits (alpha : Nat) (s : State) : Result :=
  .next <| whileRunning s <|
    if alpha > s.cfg.lmax then raise .capacity s
    else setBits (integerToBits s.intOperand alpha) s

/-- `BITS2I alpha` (R73); `SHORT_INPUT` comes before `WIDTH` (R126). -/
def execBits2i (alpha : Nat) (s : State) : Result :=
  .next <| whileRunning s <|
    if alpha > s.blen then raise .shortInput s
    else if alpha > 64 then raise .width s
    else setRint (bitsToInteger s.bitsOperand alpha) s

end Sys2Proof.Machine
end

