-- ==== Sys2Proof/Machine/BitBytePack.lean ====
section
/-! DEFINITION. The bit-byte packer: `bits_to_bytes` and `bytes_to_bits` on sequences (R90, R92) and the commands
`BITS2BYTES` and `BYTES2BITS` (R91, R93). -/

namespace Sys2Proof.Machine

/-- `bits_to_bytes(bits)` in closed form (R90): `ceil(alpha / 8)` bytes, byte `k` the sum of `bits[8k + j] * 2^j` over
those `j` in `0 .. 7` with `8k + j < alpha`. -/
def bitsToBytes (bits : List Bit) : List Byte :=
  (List.range ((bits.length + 7) / 8)).map fun k => BitVec.ofNat 8 (bitsToInteger (bits.drop (8 * k)) 8)

/-- R90's loop `for i = 0 .. alpha-1: y[i div 8] <- y[i div 8] + bits[i] * 2^(i mod 8)`, from index `i` on. -/
def packInto : List Bit → Nat → List Nat → List Nat
  | [], _, y => y
  | b :: rest, i, y => packInto rest (i + 1) (y.modify (i / 8) fun v => v + b.toNat * 2 ^ (i % 8))

/-- `bits_to_bytes(bits)` as R90's pseudocode: the loop over a zeroed sequence. `BITS2BYTES` uses the closed form;
that the two agree is a statement. -/
def bitsToBytesLoop (bits : List Bit) : List Nat :=
  packInto bits 0 (List.replicate ((bits.length + 7) / 8) 0)

/-- `bytes_to_bits(bytes)` (R92): eight bits of each byte, least significant first, byte 0 first. -/
def bytesToBits (bytes : List Byte) : List Bit := bytes.flatMap fun v => integerToBits v.toNat 8

/-- `BITS2BYTES` (R91). -/
def execBits2bytes (s : State) : Result :=
  .next <| whileRunning s <| setBytes (bitsToBytes s.bitsOperand) s

/-- `BYTES2BITS` (R93). -/
def execBytes2bits (s : State) : Result :=
  .next <| whileRunning s <| setBits (bytesToBits s.bytesOperand) s

end Sys2Proof.Machine
end

