-- ==== Sys2Proof/Machine/Flags.lean ====
section
/-! DEFINITION. The flags and the codes made of them: `VALID`, `ERR`, `CAUSE`, `STATUS` (R13, R15, R18, R124), and the
32-bit codes of a coefficient (00_scope section 6, R101, R111). -/

namespace Sys2Proof.Machine

/-- The codes of R124. -/
def Cause.code : Cause → Nat
  | .illegalCmd => 1
  | .capacity => 2
  | .shortInput => 3
  | .width => 4
  | .indexRange => 5
  | .elemRange => 6

/-- `VALID`, 1 when the last sampler command returned a value (R13). -/
def State.valid (s : State) : Nat := if s.coef.isSome then 1 else 0

/-- `ERR` (R15). -/
def State.err (s : State) : Nat := if s.fault.isSome then 1 else 0

/-- `CAUSE`, 0 while `ERR = 0` (R15). -/
def State.cause (s : State) : Nat :=
  match s.fault with
  | some c => c.code
  | none => 0

/-- `STATUS` as read: `VALID + 2*ERR + 16*CAUSE` (R18, R33). -/
def State.statusWord (s : State) : Word := BitVec.ofNat 32 (s.valid + 2 * s.err + 16 * s.cause)

/-- `zext_32` (00_scope section 6). -/
def zext32 (v : Nat) : Word := BitVec.ofNat 32 v

/-- `sext_32`, the two's complement code (00_scope section 6). -/
def sext32 (v : Int) : Word := BitVec.ofInt 32 v

/-- `signed_32` (00_scope section 6). -/
def signed32 (w : Word) : Int := if w.toNat < 2 ^ 31 then (w.toNat : Int) else (w.toNat : Int) - 2 ^ 32

end Sys2Proof.Machine
end

