-- ==== Sys2Proof/Machine/BoundedSampler.lean ====
section
/-! DEFINITION. The bounded-coefficient rejection sampler: `coeff_from_half_byte` (R110) and the command `CHB`
(R111). -/

namespace Sys2Proof.Machine

/-- `coeff_from_half_byte(b, eta)` (R110), with the `b mod 5` of R115. -/
def coeffFromHalfByte (b eta : Nat) : Option Int :=
  if eta = 2 ∧ b < 15 then some (2 - ((b % 5 : Nat) : Int))
  else if eta = 4 ∧ b < 9 then some (4 - (b : Int))
  else none

/-- `CHB b, eta` (R111). -/
def execChb (b eta : Byte) (s : State) : Result :=
  .next <| whileRunning s <| setCoef ((coeffFromHalfByte b.toNat eta.toNat).map sext32) s

end Sys2Proof.Machine
end

