-- ==== Sys2Proof/Machine/IntByte.lean ====
section
/-! DEFINITION. The integer-to-byte converter: `integer_to_bytes` on numbers (R80) and the command `I2BYTES` (R81). -/

namespace Sys2Proof.Machine

/-- `integer_to_bytes(x, alpha) = [ (x div 256^i) mod 256 | i = 0 .. alpha-1 ]` (R80). -/
def integerToBytes (x alpha : Nat) : List Byte :=
  (List.range alpha).map fun i => BitVec.ofNat 8 (x / 256 ^ i)

/-- `I2BYTES alpha` (R81); `alpha` counts bytes. -/
def execI2bytes (alpha : Nat) (s : State) : Result :=
  .next <| whileRunning s <|
    if alpha > s.cfg.nmax then raise .capacity s
    else setBytes (integerToBytes s.intOperand alpha) s

end Sys2Proof.Machine
end

