-- ==== Sys2Proof/Machine/UniformSampler.lean ====
section
/-! DEFINITION. The uniform-coefficient rejection sampler: `coeff_from_three_bytes` (R100) and the command `C3B`
(R101). -/

namespace Sys2Proof.Machine

/-- `coeff_from_three_bytes(b0, b1, b2)` for the modulus `q` (R100): the candidate when it is below `q`; never
reduced (R105). -/
def coeffFromThreeBytes (q : Nat) (b0 b1 b2 : Byte) : Option Nat :=
  if candidate b0 b1 b2 < q then some (candidate b0 b1 b2) else none

/-- `C3B b0, b1, b2` (R101). -/
def execC3b (b0 b1 b2 : Byte) (s : State) : Result :=
  .next <| whileRunning s <| setCoef ((coeffFromThreeBytes s.cfg.q b0 b1 b2).map zext32) s

end Sys2Proof.Machine
end

