-- ==== Sys2Proof/Machine/Dispatch.lean ====
section
/-! DEFINITION. One arm per command (R55), each one call of its meaning. -/

namespace Sys2Proof.Machine

def exec (i : Instr) (s : State) : Host.Outcome State Fault Refusal :=
  match i with
  | .i2bits alpha => Sys2Proof.Machine.execI2bits alpha s
  | .bits2i alpha => Sys2Proof.Machine.execBits2i alpha s
  | .i2bytes alpha => Sys2Proof.Machine.execI2bytes alpha s
  | .bits2bytes => Sys2Proof.Machine.execBits2bytes s
  | .bytes2bits => Sys2Proof.Machine.execBytes2bits s
  | .c3b b0 b1 b2 => Sys2Proof.Machine.execC3b b0 b1 b2 s
  | .chb b eta => Sys2Proof.Machine.execChb b eta s

end Sys2Proof.Machine
end

