-- ==== Sys2Proof/Machine/Port.lean ====
section
/-! DEFINITION. The register port: the address map (R32), `MemRead` (R33), `MemWrite` (R34) with the decoding of a
command word (R59), and one clock cycle (R31, R140). -/

namespace Sys2Proof.Machine

/-- The address map (R32) at byte offset `off`, a multiple of 4. -/
def slotAt (off : Nat) : Slot :=
  if off = 0x0000 then .cmd
  else if off = 0x0004 then .status
  else if off = 0x0008 then .xLo
  else if off = 0x000C then .xHi
  else if off = 0x0010 then .rintLo
  else if off = 0x0014 then .rintHi
  else if off = 0x0018 then .coef
  else if off = 0x001C then .blen
  else if off = 0x0020 then .nlen
  else if 0x1000 ≤ off ∧ off ≤ 0x1FFC then .byteElem ((off - 0x1000) / 4)
  else if 0x8000 ≤ off ∧ off ≤ 0xFFFC then .bitElem ((off - 0x8000) / 4)
  else .unmapped

/-- The slot of a word index: the byte offset is `4 * addr` (R30). -/
def slotOf (addr : BitVec 14) : Slot := slotAt (4 * addr.toNat)

/-- The word a host reads (R33); `none` where it is unspecified: `COEF` while `VALID = 0` (R14). An element at or
beyond the length reads 0 (R36). -/
def readSlot (s : State) : Slot → Option Word
  | .cmd => some 0
  | .status => some s.statusWord
  | .xLo => some (s.x.extractLsb' 0 32)
  | .xHi => some (s.x.extractLsb' 32 32)
  | .rintLo => some (s.rint.extractLsb' 0 32)
  | .rintHi => some (s.rint.extractLsb' 32 32)
  | .coef => s.coef
  | .blen => some (BitVec.ofNat 32 s.blen)
  | .nlen => some (BitVec.ofNat 32 s.nlen)
  | .byteElem i => some (BitVec.ofNat 32 (s.bytes.getD i 0).toNat)
  | .bitElem i => some (BitVec.ofNat 32 (s.bits.getD i 0).toNat)
  | .unmapped => some 0

/-- A read cycle: `rdata` is the word read, a fresh free word where it is unspecified; nothing of the block changes
(R31, R33). -/
def hostRead (slot : Slot) (s : State) : State :=
  match readSlot s slot with
  | some w => driveRdata w s
  | none => driveFreeWord s

/-- A host write of `w` to `CMD` (R59): a reserved word raises `ILLEGAL_CMD` before any check of a command (R126). -/
def performCommand (w : Word) (s : State) : Result :=
  match decode w with
  | .ok i => exec i s
  | .error _ => .next (raise .illegalCmd s)

/-- `MemWrite` (R34) in the running state, by the slot written. -/
def writeSlot (slot : Slot) (v : Word) (s : State) : Result :=
  match slot with
  | .cmd => performCommand v s
  | .xLo => .next (setXLo v s)
  | .xHi => .next (setXHi v s)
  | .blen => .next (writeBlen v s)
  | .nlen => .next (writeNlen v s)
  | .byteElem i => .next (writeByteElem i v s)
  | .bitElem i => .next (writeBitElem i v s)
  | .status => .next s
  | .rintLo => .next s
  | .rintHi => .next s
  | .coef => .next s
  | .unmapped => .next s

/-- `MemWrite` (R34): ignored while `ERR = 1` (R127). -/
def hostWrite (slot : Slot) (v : Word) (s : State) : Result :=
  match s.fault with
  | some _ => .next s
  | none => writeSlot slot v s

/-- The pins of a cycle without an access. -/
def idleCycle : PortIn := { rst := false, sel := false, we := false, addr := 0, wdata := 0 }

/-- The pins of `MemRead(4 * addr, 4)` (R31). -/
def readCycle (addr : BitVec 14) : PortIn := { rst := false, sel := true, we := false, addr := addr, wdata := 0 }

/-- The pins of `MemWrite(4 * addr, 4, v)` (R31). -/
def writeCycle (addr : BitVec 14) (v : Word) : PortIn := { rst := false, sel := true, we := true, addr := addr, wdata := v }

/-- The pins of a reset cycle (R140). -/
def resetCycle : PortIn := { idleCycle with rst := true }

/-- One rising edge with the pins `c` (R31, R140): reset wins over any access; without an access nothing happens; an
access before the first reset is refused (R141); a write drives 0 on `rdata`. -/
def portCycle (c : PortIn) (s : State) : Result :=
  if c.rst then .next (resetBlock s)
  else if !c.sel then .next (driveRdata 0 s)
  else if !s.ready then .refused .accessBeforeReset
  else if c.we then hostWrite (slotOf c.addr) c.wdata (driveRdata 0 s)
  else .next (hostRead (slotOf c.addr) s)

/-- The cycle the host drives next; a host that drives nothing more leaves the port idle (log 1). -/
def State.nextCycle (s : State) : PortIn := s.host.headD idleCycle

/-- The host's cycle is taken off its list (R44). -/
def takeCycle (s : State) : State := { s with host := s.host.tail }

/-- One step: the host's next cycle on the block (R31, R147), for an admissible configuration (93 U10). -/
def cycleStep (s : State) : Result :=
  if s.cfg.wf then portCycle s.nextCycle (takeCycle s) else .refused .configOutOfRange

/-- `s` with a host write of the command word `w` to `CMD` as its next cycle (R60). -/
def pushCommand (w : Word) (s : State) : State := { s with host := writeCycle 0 w :: s.host }

end Sys2Proof.Machine
end

