-- ==== Sys2Proof/Machine/Step.lean ====
section
/-! DEFINITION. The step of the machine, one clock cycle driven by the host (R147), and where it takes its next
command from. -/

namespace Sys2Proof.Machine

/-- One clock cycle (`cycleStep`). -/
def step (s : State) : Host.Outcome State Fault Refusal := cycleStep s

/-- `s` with the command whose bits are the `nbits` low bits of `w` as the host's next write to `CMD` (log 13). -/
def State.withFetchWord (s : State) (nbits w : Nat) : State := pushCommand (BitVec.ofNat 32 (w % 2 ^ nbits)) s

end Sys2Proof.Machine
end

