-- ==== Sys2Proof/Machine/Script.lean ====
section
/-! DEFINITION. The host's notation (R60 to R62): a line is one cycle of the port, a pseudo-instruction a list of them.
A pseudo-instruction that reads is a script of accesses, each chosen by the words read before, with a value (log 15). -/

namespace Sys2Proof.Machine

/-- The byte offset of a named register or window slot (R32). -/
def Slot.offset : Slot → Nat
  | .cmd => 0x0000
  | .status => 0x0004
  | .xLo => 0x0008
  | .xHi => 0x000C
  | .rintLo => 0x0010
  | .rintHi => 0x0014
  | .coef => 0x0018
  | .blen => 0x001C
  | .nlen => 0x0020
  | .byteElem i => 0x1000 + 4 * i
  | .bitElem i => 0x8000 + 4 * i
  | .unmapped => 0x0024

/-- The word index the port carries for an offset (R30). -/
def portAddr (off : Nat) : BitVec 14 := BitVec.ofNat 14 (off / 4)

/-- `WR name, value` (R61). -/
def wr (name : Slot) (v : Nat) : PortIn := writeCycle (portAddr name.offset) (BitVec.ofNat 32 v)

/-- `RD name` (R61). -/
def rd (name : Slot) : PortIn := readCycle (portAddr name.offset)

/-- A command line (R60): `WR CMD, word`. -/
def commandLine (i : Instr) : PortIn := writeCycle 0 (encode i)

/-- `SETX v` (R62). -/
def setX (v : Nat) : List PortIn := [wr .xLo (v % 2 ^ 32), wr .xHi (v / 2 ^ 32)]

/-- `WR BITS[i], s_i` for the elements of `l`, from index `i` on; the write of a zero element is skipped where `skip`
says so (R62). -/
def wrBitsFrom (skip : Nat → Bool) : Nat → List Bit → List PortIn
  | _, [] => []
  | i, b :: rest =>
    if skip i ∧ b = 0 then wrBitsFrom skip (i + 1) rest
    else wr (.bitElem i) b.toNat :: wrBitsFrom skip (i + 1) rest

/-- `WR BYTES[i], s_i` for the elements of `l`, as `wrBitsFrom`. -/
def wrBytesFrom (skip : Nat → Bool) : Nat → List Byte → List PortIn
  | _, [] => []
  | i, b :: rest =>
    if skip i ∧ b = 0 then wrBytesFrom skip (i + 1) rest
    else wr (.byteElem i) b.toNat :: wrBytesFrom skip (i + 1) rest

/-- `LDBITS l` without the writes of those zero elements that `skip` picks: any choice of them is allowed (R62). -/
def ldBitsSkipping (skip : Nat → Bool) (l : List Bit) : List PortIn := wr .blen l.length :: wrBitsFrom skip 0 l

/-- `LDBYTES l` without the writes of those zero elements that `skip` picks (R62). -/
def ldBytesSkipping (skip : Nat → Bool) (l : List Byte) : List PortIn := wr .nlen l.length :: wrBytesFrom skip 0 l

/-- `LDBITS l` with every write (R62). -/
def ldBits (l : List Bit) : List PortIn := ldBitsSkipping (fun _ => false) l

/-- `LDBYTES l` with every write (R62). -/
def ldBytes (l : List Byte) : List PortIn := ldBytesSkipping (fun _ => false) l

/-! ## Pseudo-instructions that read -/

/-- What a host does that uses the words it reads: one access after another, each chosen by the word read before, and
the value it ends with. -/
inductive HostScript (α : Type) where
  | done (value : α)
  | access (cycle : PortIn) (next : Word → HostScript α)

/-- The host performs the script on the block: each access is the next cycle of the port, and the script goes on with
the word it drove on `rdata` (R31, R61). The answer is the state after it and the script's value. -/
def runScript {α : Type} : HostScript α → State → Host.Outcome (State × α) Fault Refusal
  | .done value, s => .next (s, value)
  | .access cycle next, s =>
    match step { s with host := cycle :: s.host } with
    | .next t => runScript (next t.rdata) t
    | .fault r => .fault r
    | .refused r => .refused r

/-- `RD` of the `k` slots from `slot i` on; `elem` takes the element out of its word (R35), and the elements read
follow `acc`. -/
def readElems {β : Type} (slot : Nat → Slot) (elem : Word → β) : Nat → Nat → List β → HostScript (List β)
  | _, 0, acc => .done acc
  | i, k + 1, acc => .access (rd (slot i)) fun w => readElems slot elem (i + 1) k (acc ++ [elem w])

/-- `GETINT` (R62). -/
def getInt : HostScript Nat :=
  .access (rd .rintLo) fun lo => .access (rd .rintHi) fun hi => .done (lo.toNat + 2 ^ 32 * hi.toNat)

/-- `GETBITS`: the length, then that many elements; the value is the sequence read (R62). -/
def getBits : HostScript (List Bit) :=
  .access (rd .blen) fun n => readElems .bitElem (fun w => w.extractLsb' 0 1) 0 n.toNat []

/-- `GETBYTES` (R62). -/
def getBytes : HostScript (List Byte) :=
  .access (rd .nlen) fun n => readElems .byteElem (fun w => w.extractLsb' 0 8) 0 n.toNat []

/-- The value of `GETCOEF` from `STATUS` and the word of `COEF` (R62). -/
def getCoefValue (status coef : Word) : Option Int :=
  if status.toNat % 2 = 1 then some (signed32 coef) else none

/-- `GETCOEF`: `STATUS`, and `COEF` only when bit 0 is 1 (R62). -/
def getCoef : HostScript (Option Int) :=
  .access (rd .status) fun status =>
    if status.toNat % 2 = 1 then .access (rd .coef) fun coef => .done (getCoefValue status coef) else .done none

end Sys2Proof.Machine
end

