-- ==== Sys2Proof/Safety.lean ====
section
/-! DEFINITION. The terms claims are stated in: the running state (R15, R147), a block in use (R141, 93 U10), the
invariant of R23, what a step changes, and which commands write which elements (R10). -/

namespace Sys2Proof.Machine

/-- `ERR = 0`: the running state, the premise of every claim about results (R127). -/
abbrev Running (s : State) : Prop := s.fault = none

/-- An admissible configuration (93 U10) and a block that has been reset (R141): what every claim about a cycle
rests on. -/
abbrev InUse (s : State) : Prop := s.cfg.wf = true ∧ s.ready = true

/-- R23's clause on the coefficient: `VALID = 1` implies `-4 <= signed_32(COEF) <= Q - 1`. -/
def CoefInRange (s : State) : Prop :=
  match s.coef with
  | none => True
  | some c => -4 ≤ signed32 c ∧ signed32 c ≤ (s.cfg.q : Int) - 1

/-- The invariant of R23. Its other clauses (elements are bits and bytes, 64-bit registers, `CAUSE` a code of R124
exactly when `ERR = 1`, `BLEN` and `NLEN` the lengths) hold by the types of State (log 4). -/
def BlockInv (s : State) : Prop := Memory.wf s = true ∧ CoefInRange s

/-- The ten elements of R10 agree. -/
def SameBlock (s t : State) : Prop :=
  s.x = t.x ∧ s.rint = t.rint ∧ s.coef = t.coef ∧ s.fault = t.fault ∧ s.bits = t.bits ∧ s.bytes = t.bytes

/-- The state in which a cycle's access is performed: the cycle taken off the host's list, 0 on `rdata`. -/
def atEdge (s : State) : State := driveRdata 0 (takeCycle s)

/-- `k` steps, one host cycle each, stopping at the first refusal: the host's script (R61, R147). -/
def runSteps : Nat → State → Result
  | 0, s => .next s
  | k + 1, s =>
    match step s with
    | .next t => runSteps k t
    | .fault r => .fault r
    | .refused r => .refused r

/-- The words of the map through which `BITS` is seen (R32). -/
def bitsSlot : Slot → Bool
  | .blen | .bitElem _ => true
  | _ => false

/-- The words of the map through which `BYTES` is seen (R32). -/
def bytesSlot : Slot → Bool
  | .nlen | .byteElem _ => true
  | _ => false

/-- The words of the map through which `RINT` is seen (R32). -/
def rintSlot : Slot → Bool
  | .rintLo | .rintHi => true
  | _ => false

/-- The words of the map through which `VALID` and `COEF` are seen (R18, R32). -/
def sampleSlot : Slot → Bool
  | .status | .coef => true
  | _ => false

/-- The words of the map in which a command that does not fault may leave a new value: those of the elements its rule
names under "State written". -/
def destination : Instr → Slot → Bool
  | .i2bits _ => bitsSlot
  | .bits2i _ => rintSlot
  | .i2bytes _ => bytesSlot
  | .bits2bytes => bytesSlot
  | .bytes2bits => bitsSlot
  | .c3b _ _ _ => sampleSlot
  | .chb _ _ => sampleSlot

end Sys2Proof.Machine
end

