-- ==== Sys2Proof/Certificates/Slice0/Obligations.lean ====
section
/-! DEFINITION. The statements for the provers. Each docstring names the rule of `spec/` it states. A frame is written
`t = { s with bits := t.bits }`: every field but the ones named is as before, the buffers, the flags and the model's
own fields among them. -/

open Sys2Proof Sys2Proof.Machine

/-! ## Reset and the cycle (R27, R31, R44, R140) -/

/-- R27: every element after reset, and `STATUS` as read. -/
def Obligations.ResetStateHoldsTheTable : Prop :=
  State.reset.x = 0 ∧ State.reset.rint = 0 ∧ State.reset.valid = 0 ∧ State.reset.coef = none ∧ State.reset.err = 0 ∧
  State.reset.cause = 0 ∧ State.reset.bits = [] ∧ State.reset.blen = 0 ∧ State.reset.bytes = [] ∧
  State.reset.nlen = 0 ∧ State.reset.statusWord = 0 ∧ ∀ s, SameBlock (resetBlock s) State.reset

/-- R140, R128: a cycle with `rst = 1` gives the reset state whatever the state was and whatever the port carries
(read data 0, parameters kept), and no other cycle clears `ERR` or `CAUSE`. -/
def Obligations.OnlyResetLeavesTheFaultedState : Prop :=
  (∀ s : State, s.cfg.wf = true → s.nextCycle.rst = true →
    step s = .next { State.reset with cfg := s.cfg, host := s.host.tail, draws := s.draws }) ∧
  ∀ (s t : State) (c : Cause), s.fault = some c → s.nextCycle.rst = false → step s = .next t → t.fault = some c

/-- R127, R48: while `ERR = 1` a host write to any offset changes nothing, and a host read answers as in the running
state: the word of the map, the block unchanged. -/
def Obligations.FaultedBlockIsFrozen : Prop :=
  ∀ (s : State) (c : Cause), InUse s → s.fault = some c → s.nextCycle.rst = false → s.nextCycle.sel = true →
    (s.nextCycle.we = true → step s = .next (atEdge s)) ∧
    (s.nextCycle.we = false → ∃ t, step s = .next t ∧ SameBlock s t ∧
      ∀ w, readSlot s (slotOf s.nextCycle.addr) = some w → t.rdata = w)

/-- R31: what one cycle does by the pins `sel` and `we`: a read drives `MemRead` and changes no element, a write is
`MemWrite` with 0 on `rdata`, a cycle without an access changes nothing and drives 0. -/
def Obligations.CycleFollowsThePins : Prop :=
  ∀ s : State, InUse s → s.nextCycle.rst = false →
    (s.nextCycle.sel = false → step s = .next (atEdge s)) ∧
    (s.nextCycle.sel = true → s.nextCycle.we = false →
      step s = .next (hostRead (slotOf s.nextCycle.addr) (takeCycle s)) ∧
      ∀ t, step s = .next t → SameBlock s t ∧ ∀ w, readSlot s (slotOf s.nextCycle.addr) = some w → t.rdata = w) ∧
    (s.nextCycle.sel = true → s.nextCycle.we = true →
      step s = hostWrite (slotOf s.nextCycle.addr) s.nextCycle.wdata (atEdge s) ∧
      ∀ t, step s = .next t → t.rdata = 0)

/-- R143, R144, R44: from every state in use a cycle completes: one access is taken off the host's list, and the
block is in use again, with the same parameters. -/
def Obligations.EveryCycleCompletes : Prop :=
  ∀ s : State, InUse s → ∃ t, step s = .next t ∧ t.host = s.host.tail ∧ t.cfg = s.cfg ∧ InUse t

/-- 93 U2 and U10 (logs 2 and 6, the model's choice of what stops): a step is refused exactly for a configuration
outside its range, or for an access before the first reset. -/
def Obligations.StepRefusesExactlyWhen : Prop :=
  ∀ (s : State) (r : Refusal), step s = .refused r ↔
    (r = .configOutOfRange ∧ s.cfg.wf = false) ∨
    (r = .accessBeforeReset ∧ s.cfg.wf = true ∧ s.ready = false ∧ s.nextCycle.rst = false ∧ s.nextCycle.sel = true)

/-- R23 at reset. -/
def Obligations.InvHoldsAtReset : Prop := BlockInv State.reset

/-- R23: every step keeps the invariant. The premise `5 <= Q` is the model's (log 8): for a smaller `Q` the rule's
bound `Q - 1` on a coefficient fails after `CHB 0, 4`. -/
def Obligations.StepKeepsInv : Prop :=
  ∀ s t : State, 5 ≤ s.cfg.q → BlockInv s → step s = .next t → BlockInv t ∧ t.cfg = s.cfg

/-- R9: two blocks with the same parameters and elements that receive the same cycle reach the same elements and
return the same read data, but for `COEF` read while `VALID = 0`. Nothing else of State matters: not the host's further
cycles, the earlier `rdata`, the draws. -/
def Obligations.NoHiddenState : Prop :=
  ∀ s₁ s₂ t₁ t₂ : State, s₁.cfg = s₂.cfg → SameBlock s₁ s₂ → s₁.nextCycle = s₂.nextCycle →
    step s₁ = .next t₁ → step s₂ = .next t₂ →
    SameBlock t₁ t₂ ∧ (t₁.rdata = t₂.rdata ∨ (slotOf s₁.nextCycle.addr = .coef ∧ s₁.coef = none))

/-- R10, R11, R12, R13, R16, R17: which cycle may change which element. -/
def Obligations.WhoWritesEachElement : Prop :=
  ∀ s t : State, s.nextCycle.rst = false → step s = .next t →
    let write := s.nextCycle.sel = true ∧ s.nextCycle.we = true ∧ s.fault = none
    let slot := slotOf s.nextCycle.addr
    let commands := fun i => write ∧ slot = .cmd ∧ decode s.nextCycle.wdata = .ok i
    (t.x ≠ s.x → write ∧ (slot = .xLo ∨ slot = .xHi)) ∧
    (t.rint ≠ s.rint → ∃ α, commands (.bits2i α)) ∧
    (t.coef ≠ s.coef → (∃ b0 b1 b2, commands (.c3b b0 b1 b2)) ∨ ∃ b eta, commands (.chb b eta)) ∧
    (t.bits ≠ s.bits → (write ∧ (slot = .blen ∨ ∃ i, slot = .bitElem i)) ∨ (∃ α, commands (.i2bits α)) ∨
      commands .bytes2bits) ∧
    (t.bytes ≠ s.bytes → (write ∧ (slot = .nlen ∨ ∃ i, slot = .byteElem i)) ∨ (∃ α, commands (.i2bytes α)) ∨
      commands .bits2bytes) ∧
    (t.fault ≠ s.fault → write)

/-! ## Reads (R14, R18, R33, R35, R36) -/

/-- R33, with R14 and R36: the word of every offset of the window; the block does not change. `Memory.wf` is R23's
bound on the lengths (so that a length fits the word). -/
def Obligations.ReadReturnsTheMap : Prop :=
  ∀ s : State, InUse s → Memory.wf s = true →
    s.nextCycle.rst = false → s.nextCycle.sel = true → s.nextCycle.we = false →
    ∃ t, step s = .next t ∧ t = { s with host := s.host.tail, rdata := t.rdata, draws := t.draws } ∧
      let off := 4 * s.nextCycle.addr.toNat
      if off = 0x0000 then t.rdata = 0
      else if off = 0x0004 then t.rdata.toNat = s.valid + 2 * s.err + 16 * s.cause
      else if off = 0x0008 then t.rdata.toNat = s.x.toNat % 2 ^ 32
      else if off = 0x000C then t.rdata.toNat = s.x.toNat / 2 ^ 32
      else if off = 0x0010 then t.rdata.toNat = s.rint.toNat % 2 ^ 32
      else if off = 0x0014 then t.rdata.toNat = s.rint.toNat / 2 ^ 32
      else if off = 0x0018 then ∀ c, s.coef = some c → t.rdata = c
      else if off = 0x001C then t.rdata.toNat = s.bits.length
      else if off = 0x0020 then t.rdata.toNat = s.bytes.length
      else if 0x1000 ≤ off ∧ off ≤ 0x1FFC then
        if h : (off - 0x1000) / 4 < s.bytes.length then t.rdata.toNat = s.bytes[(off - 0x1000) / 4].toNat
        else t.rdata = 0
      else if 0x8000 ≤ off ∧ off ≤ 0xFFFC then
        if h : (off - 0x8000) / 4 < s.bits.length then t.rdata.toNat = s.bits[(off - 0x8000) / 4].toNat
        else t.rdata = 0
      else t.rdata = 0

/-- R14, 93 U1 (log 3, the model's form of the draw): reading `COEF` while `VALID = 0` gives the next free word, a
fresh one at each read, and changes nothing of the block. -/
def Obligations.CoefWithoutValueReadsAFreeWord : Prop :=
  ∀ s : State, InUse s → s.coef = none →
    s.nextCycle.rst = false → s.nextCycle.sel = true → s.nextCycle.we = false → 4 * s.nextCycle.addr.toNat = 0x0018 →
    step s = .next { s with host := s.host.tail, rdata := Config.freeWord s.draws, draws := s.draws + 1 }

/-- R18: the fields of `STATUS`. -/
def Obligations.StatusFields : Prop :=
  ∀ s : State,
    (s.statusWord.extractLsb' 0 1).toNat = (if s.coef.isSome then 1 else 0) ∧
    (s.statusWord.extractLsb' 1 1).toNat = (if s.fault.isSome then 1 else 0) ∧
    s.statusWord.extractLsb' 2 2 = 0 ∧ (s.statusWord.extractLsb' 4 4).toNat = s.cause ∧
    s.statusWord.extractLsb' 8 24 = 0

/-- R62 (`GETCOEF`) with R14: `STATUS` and then `COEF` give the optional result; a rejected sample is never taken for
a value, whatever word stands for it. -/
def Obligations.GetcoefGivesTheOptionalResult : Prop :=
  ∀ (s : State) (w : Word), (∀ c, readSlot s .coef = some c → w = c) →
    getCoefValue s.statusWord w = s.coef.map signed32

/-! ## Writes (R11, R35, R37, R38, R39, R43) -/

/-- R11, R34: a write to one half of `X` stores that half and leaves the other. -/
def Obligations.WritesToTheHalvesOfX : Prop :=
  ∀ s : State, InUse s → Running s →
    s.nextCycle.rst = false → s.nextCycle.sel = true → s.nextCycle.we = true →
    (4 * s.nextCycle.addr.toNat = 0x0008 → ∃ t, step s = .next t ∧ t = { atEdge s with x := t.x } ∧
      t.x.toNat = s.x.toNat / 2 ^ 32 * 2 ^ 32 + s.nextCycle.wdata.toNat) ∧
    (4 * s.nextCycle.addr.toNat = 0x000C → ∃ t, step s = .next t ∧ t = { atEdge s with x := t.x } ∧
      t.x.toNat = s.nextCycle.wdata.toNat * 2 ^ 32 + s.x.toNat % 2 ^ 32)

/-- R37: a host write to the `BITS` window at index `i`. -/
def Obligations.WriteOfABitElement : Prop :=
  ∀ (s : State) (i : Nat), InUse s → Running s →
    s.nextCycle.rst = false → s.nextCycle.sel = true → s.nextCycle.we = true →
    i < 8192 → 4 * s.nextCycle.addr.toNat = 0x8000 + 4 * i →
    (s.bits.length ≤ i → step s = .next { atEdge s with fault := some .indexRange }) ∧
    (i < s.bits.length → 1 < s.nextCycle.wdata.toNat → step s = .next { atEdge s with fault := some .elemRange }) ∧
    (i < s.bits.length → s.nextCycle.wdata.toNat ≤ 1 →
      ∃ t, step s = .next t ∧ t = { atEdge s with bits := t.bits } ∧ t.bits.length = s.bits.length ∧
        (∀ h : i < t.bits.length, t.bits[i].toNat = s.nextCycle.wdata.toNat) ∧
        ∀ j, j ≠ i → t.bits[j]? = s.bits[j]?)

/-- R38: a host write to the `BYTES` window at index `i`. -/
def Obligations.WriteOfAByteElement : Prop :=
  ∀ (s : State) (i : Nat), InUse s → Running s →
    s.nextCycle.rst = false → s.nextCycle.sel = true → s.nextCycle.we = true →
    i < 1024 → 4 * s.nextCycle.addr.toNat = 0x1000 + 4 * i →
    (s.bytes.length ≤ i → step s = .next { atEdge s with fault := some .indexRange }) ∧
    (i < s.bytes.length → 255 < s.nextCycle.wdata.toNat →
      step s = .next { atEdge s with fault := some .elemRange }) ∧
    (i < s.bytes.length → s.nextCycle.wdata.toNat ≤ 255 →
      ∃ t, step s = .next t ∧ t = { atEdge s with bytes := t.bytes } ∧ t.bytes.length = s.bytes.length ∧
        (∀ h : i < t.bytes.length, t.bytes[i].toNat = s.nextCycle.wdata.toNat) ∧
        ∀ j, j ≠ i → t.bytes[j]? = s.bytes[j]?)

/-- R39: a write of a length above the capacity faults; any other gives a new all-zero sequence of that length,
whatever stood there. -/
def Obligations.WriteOfALength : Prop :=
  ∀ s : State, InUse s → Running s →
    s.nextCycle.rst = false → s.nextCycle.sel = true → s.nextCycle.we = true →
    let n := s.nextCycle.wdata.toNat
    (4 * s.nextCycle.addr.toNat = 0x001C →
      (8 * s.cfg.nmax < n → step s = .next { atEdge s with fault := some .capacity }) ∧
      (n ≤ 8 * s.cfg.nmax → step s = .next { atEdge s with bits := List.replicate n 0 })) ∧
    (4 * s.nextCycle.addr.toNat = 0x0020 →
      (s.cfg.nmax < n → step s = .next { atEdge s with fault := some .capacity }) ∧
      (n ≤ s.cfg.nmax → step s = .next { atEdge s with bytes := List.replicate n 0 }))

/-- R43: an unmapped offset reads 0 and ignores writes, and a write to a read-only register is ignored; neither is a
fault. -/
def Obligations.UnmappedAndReadOnlyOffsets : Prop :=
  ∀ s : State, InUse s → s.nextCycle.rst = false → s.nextCycle.sel = true →
    let off := 4 * s.nextCycle.addr.toNat
    let unmapped := (0x0024 ≤ off ∧ off ≤ 0x0FFC) ∨ (0x2000 ≤ off ∧ off ≤ 0x7FFC)
    (unmapped → s.nextCycle.we = false → step s = .next (atEdge s)) ∧
    (unmapped ∨ off = 0x0004 ∨ off = 0x0010 ∨ off = 0x0014 ∨ off = 0x0018 → s.nextCycle.we = true →
      step s = .next (atEdge s))

/-- R35: the slots of a window at or beyond the capacity are never inside a sequence: they read 0, and a write to one
faults. -/
def Obligations.SlotsBeyondTheCapacity : Prop :=
  ∀ (s : State) (i : Nat) (v : Word), Memory.wf s = true →
    (8 * s.cfg.nmax ≤ i → readSlot s (.bitElem i) = some 0 ∧
      writeSlot (.bitElem i) v s = .next { s with fault := some .indexRange }) ∧
    (s.cfg.nmax ≤ i → readSlot s (.byteElem i) = some 0 ∧
      writeSlot (.byteElem i) v s = .next { s with fault := some .indexRange })

/-- R62 (`SETX`, `LDBITS`, `LDBYTES`) with R11, R37, R38, R39: performed from a running state they leave exactly the
operand they name and no fault. The list of host cycles and the expansions are the model's forms (logs 1 and 15). -/
def Obligations.LoadingAnOperand : Prop :=
  (∀ (s : State) (v : Nat) (rest : List PortIn), InUse s → Running s → v < 2 ^ 64 → s.host = setX v ++ rest →
    runSteps 2 s = .next { s with host := rest, rdata := 0, x := BitVec.ofNat 64 v }) ∧
  (∀ (s : State) (l : List Bit) (rest : List PortIn), InUse s → Running s → l.length ≤ s.cfg.lmax →
    s.host = ldBits l ++ rest →
    runSteps (l.length + 1) s = .next { s with host := rest, rdata := 0, bits := l }) ∧
  ∀ (s : State) (l : List Byte) (rest : List PortIn), InUse s → Running s → l.length ≤ s.cfg.nmax →
    s.host = ldBytes l ++ rest →
    runSteps (l.length + 1) s = .next { s with host := rest, rdata := 0, bytes := l }

/-! ## Command words (R50 to R60) -/

/-- R59: a write of `w` to `CMD`, the decoding written out on the word's bits. -/
def Obligations.CommandWriteDecodes : Prop :=
  ∀ s : State, InUse s → s.nextCycle.rst = false → s.nextCycle.sel = true → s.nextCycle.we = true →
    s.nextCycle.addr = 0 →
    let w := s.nextCycle.wdata
    let opc := (w.extractLsb' 28 4).toNat
    let illegal : Result := .next { atEdge s with fault := some .illegalCmd }
    let ifZ : Bool → Instr → Result := fun zero i => if zero then exec i (atEdge s) else illegal
    (∀ c, s.fault = some c → step s = .next (atEdge s)) ∧
    (Running s → step s =
      if w.extractLsb' 24 4 ≠ 0 then illegal
      else if opc = 1 then ifZ (w.extractLsb' 16 8 == 0) (.i2bits (w.extractLsb' 0 16).toNat)
      else if opc = 2 then ifZ (w.extractLsb' 16 8 == 0) (.bits2i (w.extractLsb' 0 16).toNat)
      else if opc = 3 then ifZ (w.extractLsb' 16 8 == 0) (.i2bytes (w.extractLsb' 0 16).toNat)
      else if opc = 4 then ifZ (w.extractLsb' 0 24 == 0) .bits2bytes
      else if opc = 5 then ifZ (w.extractLsb' 0 24 == 0) .bytes2bits
      else if opc = 6 then exec (.c3b (w.extractLsb' 0 8) (w.extractLsb' 8 8) (w.extractLsb' 16 8)) (atEdge s)
      else if opc = 7 then ifZ (w.extractLsb' 16 8 == 0) (.chb (w.extractLsb' 0 8) (w.extractLsb' 8 8))
      else illegal)

/-- R56: which words are reserved; writing one performs nothing and raises `ILLEGAL_CMD`. -/
def Obligations.ReservedWordsFault : Prop :=
  ∀ w : Word,
    ((∃ r, decode w = .error r) ↔
      (w.extractLsb' 28 4 = 0 ∨ 8 ≤ (w.extractLsb' 28 4).toNat ∨ w.extractLsb' 24 4 ≠ 0 ∨
        (w.extractLsb' 28 4 ∈ [1, 2, 3, 7] ∧ w.extractLsb' 16 8 ≠ 0) ∨
        (w.extractLsb' 28 4 ∈ [4, 5] ∧ w.extractLsb' 0 24 ≠ 0))) ∧
    ∀ (s : State) (r : Reserved), decode w = .error r → Running s →
      hostWrite .cmd w s = .next { s with fault := some .illegalCmd }

/-- R56: of the 2^32 words exactly 17039362 are commands. -/
def Obligations.CommandWordCount : Prop :=
  Set.ncard { w : Word | ∃ i, decode w = .ok i } = 17039362

/-- R55: a word is the command of a row exactly when `w & mask = match`. -/
def Obligations.RowsAreMaskAndMatch : Prop :=
  ∀ w : Word,
    ((∃ α, decode w = .ok (.i2bits α)) ↔ w &&& 0xFFFF0000#32 = 0x10000000#32) ∧
    ((∃ α, decode w = .ok (.bits2i α)) ↔ w &&& 0xFFFF0000#32 = 0x20000000#32) ∧
    ((∃ α, decode w = .ok (.i2bytes α)) ↔ w &&& 0xFFFF0000#32 = 0x30000000#32) ∧
    (decode w = .ok .bits2bytes ↔ w &&& 0xFFFFFFFF#32 = 0x40000000#32) ∧
    (decode w = .ok .bytes2bits ↔ w &&& 0xFFFFFFFF#32 = 0x50000000#32) ∧
    ((∃ b0 b1 b2, decode w = .ok (.c3b b0 b1 b2)) ↔ w &&& 0xFF000000#32 = 0x60000000#32) ∧
    ((∃ b eta, decode w = .ok (.chb b eta)) ↔ w &&& 0xFFFF0000#32 = 0x70000000#32)

/-- R59, R60: decoding the word of a well-formed command gives the command back, for every command and operand. -/
def Obligations.DecodeOfEncode : Prop := ∀ i : Instr, i.wf = true → decode (encode i) = .ok i

/-- R59, R60: what the decoder accepts is well-formed and its word is the one decoded: a word has one reading and a
command one word. -/
def Obligations.EncodeOfDecode : Prop :=
  ∀ (w : Word) (i : Instr), decode w = .ok i → i.wf = true ∧ encode i = w

/-- R55, R60: words written out by hand. -/
def Obligations.HandWrittenWords : Prop :=
  decode 0x10000008#32 = .ok (.i2bits 8) ∧ decode 0x20000041#32 = .ok (.bits2i 65) ∧
  decode 0x3000FFFF#32 = .ok (.i2bytes 65535) ∧ decode 0x40000000#32 = .ok .bits2bytes ∧
  decode 0x50000000#32 = .ok .bytes2bits ∧ decode 0x60801234#32 = .ok (.c3b 0x34 0x12 0x80) ∧
  decode 0x7000020E#32 = .ok (.chb 14 2)

/-- R59, R60, R144: the next cycle's command runs: a `CMD` write of a word that decodes to `i` is `exec i` at the
edge (the cycle taken off, 0 on `rdata`); so is the word placed by `withFetchWord`, and a command line of R60. -/
def Obligations.StepRunsTheDecodedCommand : Prop :=
  (∀ (s : State) (i : Instr), InUse s → Running s →
    s.nextCycle.rst = false → s.nextCycle.sel = true → s.nextCycle.we = true → s.nextCycle.addr = 0 →
    decode s.nextCycle.wdata = .ok i → step s = exec i (atEdge s)) ∧
  (∀ (s : State) (i : Instr) (nbits w : Nat), InUse s → Running s → decodeTableWord nbits w = some i →
    step (s.withFetchWord nbits w) = exec i { s with rdata := 0 }) ∧
  ∀ (s : State) (i : Instr) (rest : List PortIn), InUse s → Running s → i.wf = true →
    s.host = commandLine i :: rest → step s = exec i { s with host := rest, rdata := 0 }

/-! ## The commands (R71, R73, R81, R91, R93, R101, R111) -/

/-- R71 (R70): `I2BITS`. -/
def Obligations.I2bitsResult : Prop :=
  ∀ (s : State) (α : Nat), Running s →
    (α < 65536 → decode (BitVec.ofNat 32 (0x10000000 + α)) = .ok (.i2bits α)) ∧
    (8 * s.cfg.nmax < α → exec (.i2bits α) s = .next { s with fault := some .capacity }) ∧
    (α ≤ 8 * s.cfg.nmax → ∃ t, exec (.i2bits α) s = .next t ∧ t = { s with bits := t.bits } ∧ t.bits.length = α ∧
      ∀ (i : Nat) (h : i < t.bits.length), t.bits[i].toNat = s.x.toNat / 2 ^ i % 2)

/-- R73 (R72): `BITS2I`; `SHORT_INPUT` before `WIDTH`. -/
def Obligations.Bits2iResult : Prop :=
  ∀ (s : State) (α : Nat), Running s →
    (α < 65536 → decode (BitVec.ofNat 32 (0x20000000 + α)) = .ok (.bits2i α)) ∧
    (s.bits.length < α → exec (.bits2i α) s = .next { s with fault := some .shortInput }) ∧
    (α ≤ s.bits.length → 64 < α → exec (.bits2i α) s = .next { s with fault := some .width }) ∧
    (α ≤ s.bits.length → α ≤ 64 → ∃ t, exec (.bits2i α) s = .next t ∧ t = { s with rint := t.rint } ∧
      t.rint.toNat = ∑ i ∈ Finset.range α, (s.bits.getD i 0).toNat * 2 ^ i)

/-- R81 (R80): `I2BYTES`. -/
def Obligations.I2bytesResult : Prop :=
  ∀ (s : State) (α : Nat), Running s →
    (α < 65536 → decode (BitVec.ofNat 32 (0x30000000 + α)) = .ok (.i2bytes α)) ∧
    (s.cfg.nmax < α → exec (.i2bytes α) s = .next { s with fault := some .capacity }) ∧
    (α ≤ s.cfg.nmax → ∃ t, exec (.i2bytes α) s = .next t ∧ t = { s with bytes := t.bytes } ∧ t.bytes.length = α ∧
      ∀ (i : Nat) (h : i < t.bytes.length), t.bytes[i].toNat = s.x.toNat / 256 ^ i % 256)

/-- R91 (R90): `BITS2BYTES`; no fault, and the result fits where the buffers keep R23's bound. -/
def Obligations.Bits2bytesResult : Prop :=
  ∀ s : State, Running s →
    decode 0x40000000#32 = .ok .bits2bytes ∧
    ∃ t, exec .bits2bytes s = .next t ∧ t = { s with bytes := t.bytes } ∧
      t.bytes.length = (s.bits.length + 7) / 8 ∧
      (∀ (k : Nat) (h : k < t.bytes.length),
        t.bytes[k].toNat = ∑ j ∈ Finset.range 8, (s.bits.getD (8 * k + j) 0).toNat * 2 ^ j) ∧
      (Memory.wf s = true → t.bytes.length ≤ s.cfg.nmax)

/-- R93 (R92): `BYTES2BITS`; no fault, and the result fits where the buffers keep R23's bound. -/
def Obligations.Bytes2bitsResult : Prop :=
  ∀ s : State, Running s →
    decode 0x50000000#32 = .ok .bytes2bits ∧
    ∃ t, exec .bytes2bits s = .next t ∧ t = { s with bits := t.bits } ∧ t.bits.length = 8 * s.bytes.length ∧
      (∀ (k : Nat) (h : k < t.bits.length), t.bits[k].toNat = (s.bytes.getD (k / 8) 0).toNat / 2 ^ (k % 8) % 2) ∧
      (Memory.wf s = true → t.bits.length ≤ 8 * s.cfg.nmax)

/-- R101 (R100): `C3B`, the candidate as the low 23 bits of the little-endian window; accepted when below `Q`, else no
value. -/
def Obligations.C3bResult : Prop :=
  ∀ (s : State) (b0 b1 b2 : Byte), Running s →
    let z := (65536 * b2.toNat + 256 * b1.toNat + b0.toNat) % 2 ^ 23
    decode (BitVec.ofNat 32 (0x60000000 + 65536 * b2.toNat + 256 * b1.toNat + b0.toNat)) = .ok (.c3b b0 b1 b2) ∧
    (z < s.cfg.q → ∃ c : Word, c.toNat = z ∧ exec (.c3b b0 b1 b2) s = .next { s with coef := some c }) ∧
    (s.cfg.q ≤ z → exec (.c3b b0 b1 b2) s = .next { s with coef := none })

/-- R111 (R110): `CHB`; an unsupported `eta` and a `b` above 15 give no value and no fault. -/
def Obligations.ChbResult : Prop :=
  ∀ (s : State) (b eta : Byte), Running s →
    decode (BitVec.ofNat 32 (0x70000000 + 256 * eta.toNat + b.toNat)) = .ok (.chb b eta) ∧
    (eta.toNat = 2 → b.toNat < 15 → ∃ c : Word, signed32 c = 2 - ((b.toNat % 5 : Nat) : Int) ∧
      exec (.chb b eta) s = .next { s with coef := some c }) ∧
    (eta.toNat = 4 → b.toNat < 9 → ∃ c : Word, signed32 c = 4 - (b.toNat : Int) ∧
      exec (.chb b eta) s = .next { s with coef := some c }) ∧
    (¬(eta.toNat = 2 ∧ b.toNat < 15) → ¬(eta.toNat = 4 ∧ b.toNat < 9) →
      exec (.chb b eta) s = .next { s with coef := none })

/-- D25 (R8, "State written" of R71 to R111): what any command leaves unchanged, through the host's reads: every word
of the map but those of its own result, `STATUS` too where it does not fault; and every field that is not the
block's. -/
def Obligations.CommandFrame : Prop :=
  ∀ (i : Instr) (s t : State), exec i s = .next t →
    (∀ slot, destination i slot = false → (slot = .status → t.fault = s.fault) →
      readSlot t slot = readSlot s slot) ∧
    t.x = s.x ∧ t.cfg = s.cfg ∧ t.ready = s.ready ∧ t.rdata = s.rdata ∧ t.host = s.host ∧ t.draws = s.draws

/-- R8: the values a command writes are a function of its word and of the elements its rule names. -/
def Obligations.ResultsDependOnNamedInputs : Prop :=
  ∀ s₁ s₂ t₁ t₂ : State, s₁.cfg = s₂.cfg → Running s₁ → Running s₂ →
    (∀ α, exec (.i2bits α) s₁ = .next t₁ → exec (.i2bits α) s₂ = .next t₂ → s₁.x = s₂.x →
      t₁.fault = t₂.fault ∧ (t₁.fault = none → t₁.bits = t₂.bits)) ∧
    (∀ α, exec (.bits2i α) s₁ = .next t₁ → exec (.bits2i α) s₂ = .next t₂ → s₁.bits = s₂.bits →
      t₁.fault = t₂.fault ∧ (t₁.fault = none → t₁.rint = t₂.rint)) ∧
    (∀ α, exec (.i2bytes α) s₁ = .next t₁ → exec (.i2bytes α) s₂ = .next t₂ → s₁.x = s₂.x →
      t₁.fault = t₂.fault ∧ (t₁.fault = none → t₁.bytes = t₂.bytes)) ∧
    (exec .bits2bytes s₁ = .next t₁ → exec .bits2bytes s₂ = .next t₂ → s₁.bits = s₂.bits → t₁.bytes = t₂.bytes) ∧
    (exec .bytes2bits s₁ = .next t₁ → exec .bytes2bits s₂ = .next t₂ → s₁.bytes = s₂.bytes → t₁.bits = t₂.bits) ∧
    (∀ b0 b1 b2, exec (.c3b b0 b1 b2) s₁ = .next t₁ → exec (.c3b b0 b1 b2) s₂ = .next t₂ → t₁.coef = t₂.coef) ∧
    ∀ b eta, exec (.chb b eta) s₁ = .next t₁ → exec (.chb b eta) s₂ = .next t₂ → t₁.coef = t₂.coef

/-- R142: commands on the reset state. -/
def Obligations.CommandsOnTheResetState : Prop :=
  exec (.i2bits 8) State.reset = .next { State.reset with bits := [0, 0, 0, 0, 0, 0, 0, 0] } ∧
  exec .bits2bytes State.reset = .next State.reset ∧
  exec (.bits2i 1) State.reset = .next { State.reset with fault := some .shortInput }

/-! ## Faults (R120, R124 to R129) -/

/-- R120: a `CMD` write in the running state has one of three outcomes: a value, "no value" (samplers only), a fault
(never a sampler or a packer) that changes nothing else. -/
def Obligations.ThreeOutcomesOfACommand : Prop :=
  ∀ s : State, InUse s → Running s →
    s.nextCycle.rst = false → s.nextCycle.sel = true → s.nextCycle.we = true → s.nextCycle.addr = 0 →
    let sampler : Instr → Bool := fun i => match i with
      | .c3b _ _ _ | .chb _ _ => true
      | .i2bits _ | .bits2i _ | .i2bytes _ | .bits2bytes | .bytes2bits => false
    let mayFault : Instr → Bool := fun i => match i with
      | .i2bits _ | .bits2i _ | .i2bytes _ => true
      | .bits2bytes | .bytes2bits | .c3b _ _ _ | .chb _ _ => false
    ∃ t, step s = .next t ∧
      ((t.err = 0 ∧ ∃ i, decode s.nextCycle.wdata = .ok i ∧ exec i (atEdge s) = .next t ∧
          (sampler i = true → t.valid = 1)) ∨
        (t.err = 0 ∧ t.valid = 0 ∧ ∃ i, decode s.nextCycle.wdata = .ok i ∧ sampler i = true) ∨
        (t.err = 1 ∧ t = { atEdge s with fault := t.fault } ∧
          ((∃ r, decode s.nextCycle.wdata = .error r) ∨
            ∃ i, decode s.nextCycle.wdata = .ok i ∧ mayFault i = true)))

/-- R124 with R126: every row of the table and no other way to fault: from a running state, each cause is raised
exactly under its condition, the codes are the table's, and a fault records its code and nothing else. -/
def Obligations.FaultsAreThoseOfTheTable : Prop :=
  (Cause.illegalCmd.code = 1 ∧ Cause.capacity.code = 2 ∧ Cause.shortInput.code = 3 ∧ Cause.width.code = 4 ∧
    Cause.indexRange.code = 5 ∧ Cause.elemRange.code = 6) ∧
  ∀ s t : State, InUse s → Running s → s.nextCycle.rst = false → step s = .next t →
    let v := s.nextCycle.wdata.toNat
    let slot := slotOf s.nextCycle.addr
    let writes := fun a => s.nextCycle.sel = true ∧ s.nextCycle.we = true ∧ slot = a
    let commands := fun i => writes .cmd ∧ decode s.nextCycle.wdata = .ok i
    (t.fault = some .illegalCmd ↔ writes .cmd ∧ ∃ r, decode s.nextCycle.wdata = .error r) ∧
    (t.fault = some .capacity ↔
      (∃ α, commands (.i2bits α) ∧ s.cfg.lmax < α) ∨ (∃ α, commands (.i2bytes α) ∧ s.cfg.nmax < α) ∨
      (writes .blen ∧ s.cfg.lmax < v) ∨ (writes .nlen ∧ s.cfg.nmax < v)) ∧
    (t.fault = some .shortInput ↔ ∃ α, commands (.bits2i α) ∧ s.bits.length < α) ∧
    (t.fault = some .width ↔ ∃ α, commands (.bits2i α) ∧ α ≤ s.bits.length ∧ 64 < α) ∧
    (t.fault = some .indexRange ↔
      ∃ i, (writes (.bitElem i) ∧ s.bits.length ≤ i) ∨ (writes (.byteElem i) ∧ s.bytes.length ≤ i)) ∧
    (t.fault = some .elemRange ↔
      ∃ i, (writes (.bitElem i) ∧ i < s.bits.length ∧ 1 < v) ∨
        (writes (.byteElem i) ∧ i < s.bytes.length ∧ 255 < v)) ∧
    (t.fault ≠ none → t = { atEdge s with fault := t.fault })

/-- R125: fault entry, and so R129's precision: a cycle that raises `c` sets `ERR` and `CAUSE` and leaves every other
element as it was. -/
def Obligations.FaultsArePrecise : Prop :=
  ∀ (s t : State) (c : Cause), Running s → step s = .next t → t.fault = some c →
    t.err = 1 ∧ t.cause = c.code ∧ SameBlock { s with fault := some c } t ∧ t = { atEdge s with fault := some c }

/-! ## The functions and their laws (R70, R72, R74, R75, R80, R82, R83, R90, R92, R94 to R97) -/

/-- R74: the round trip of the bit converter, as a law of the functions and through the two commands. -/
def Obligations.RoundTripOfTheBitConverter : Prop :=
  (∀ x α : Nat, bitsToInteger (integerToBits x α) α = x % 2 ^ α) ∧
  ∀ (s : State) (α : Nat), Running s → α ≤ 64 → α ≤ s.cfg.lmax →
    ∃ t u, exec (.i2bits α) s = .next t ∧ exec (.bits2i α) t = .next u ∧
      u.rint.toNat = s.x.toNat % 2 ^ α ∧ u.blen = α ∧ u.err = 0

/-- R75: the inverse round trip. -/
def Obligations.InverseRoundTripOfTheBitConverter : Prop :=
  ∀ (l : List Bit) (α : Nat), α ≤ l.length → integerToBits (bitsToInteger l α) α = l.take α

/-- R90: the closed form `BITS2BYTES` uses is the rule's additive accumulation. -/
def Obligations.PackingIsAdditiveAccumulation : Prop :=
  ∀ l : List Bit, bitsToBytesLoop l = (bitsToBytes l).map BitVec.toNat

/-- R94, R95: packing and unpacking gives the sequence back, padded with zeros to a multiple of 8 (with none where its
length is one), as a law of the functions and through the two commands. -/
def Obligations.PackThenUnpack : Prop :=
  (∀ l : List Bit, bytesToBits (bitsToBytes l) =
    l ++ List.replicate (8 * ((l.length + 7) / 8) - l.length) 0) ∧
  ∀ s : State, Running s → ∃ t u, exec .bits2bytes s = .next t ∧ exec .bytes2bits t = .next u ∧
    u.bits = s.bits ++ List.replicate (8 * ((s.bits.length + 7) / 8) - s.bits.length) 0 ∧
    (s.bits.length % 8 = 0 → u.bits = s.bits ∧ u.blen = s.blen)

/-- R96: unpacking and packing gives every byte sequence back. -/
def Obligations.UnpackThenPack : Prop := ∀ l : List Byte, bitsToBytes (bytesToBits l) = l

/-- R70: the bits of any non-negative integer: how many, which, the sequential form, and their sum. -/
def Obligations.BitsOfAnyInteger : Prop :=
  ∀ x α : Nat, (integerToBits x α).length = α ∧
    (∀ i, i < α → ((integerToBits x α).getD i 0).toNat = x / 2 ^ i % 2) ∧
    integerToBits x 0 = [] ∧ integerToBits x (α + 1) = BitVec.ofNat 1 (x % 2) :: integerToBits (x / 2) α ∧
    ∑ i ∈ Finset.range α, ((integerToBits x α).getD i 0).toNat * 2 ^ i = x % 2 ^ α

/-- R72: the integer of the first `alpha` bits, whatever stands beyond them: the sum, its range, and one turn of the
doubling from the most significant bit down. -/
def Obligations.IntegerOfAnyBits : Prop :=
  ∀ (l : List Bit) (α : Nat), α ≤ l.length →
    bitsToInteger l α = ∑ i ∈ Finset.range α, (l.getD i 0).toNat * 2 ^ i ∧ bitsToInteger l α < 2 ^ α ∧
    bitsToInteger l α = bitsToInteger (l.take α) α ∧
    ∀ (b : Bit), bitsToInteger (b :: l) (α + 1) = 2 * bitsToInteger l α + b.toNat

/-- R80: the bytes of any non-negative integer: how many, which, the loop's form, and their sum. -/
def Obligations.BytesOfAnyInteger : Prop :=
  ∀ x α : Nat, (integerToBytes x α).length = α ∧
    (∀ i, i < α → ((integerToBytes x α).getD i 0).toNat = x / 256 ^ i % 256) ∧
    integerToBytes x 0 = [] ∧ integerToBytes x (α + 1) = BitVec.ofNat 8 (x % 256) :: integerToBytes (x / 256) α ∧
    ∑ i ∈ Finset.range α, ((integerToBytes x α).getD i 0).toNat * 256 ^ i = x % 256 ^ α

/-- R92: the bits of any byte sequence. -/
def Obligations.BitsOfAnyBytes : Prop :=
  ∀ l : List Byte, (bytesToBits l).length = 8 * l.length ∧
    ∀ k, k < 8 * l.length → ((bytesToBits l).getD k 0).toNat = (l.getD (k / 8) 0).toNat / 2 ^ (k % 8) % 2

/-- R83: `integer_to_bytes` is `integer_to_bits` packed. -/
def Obligations.BytesOfAnIntegerArePackedBits : Prop :=
  ∀ x α : Nat, integerToBytes x α = bitsToBytes (integerToBits x (8 * α))

/-- R82: `BYTES2BITS` and then `BITS2I 8*n` give the little-endian integer of the first `n <= 8` bytes. -/
def Obligations.IntegerOfBytesByTwoCommands : Prop :=
  ∀ (s : State) (n : Nat), Running s → n ≤ 8 → n ≤ s.bytes.length →
    ∃ t u, exec .bytes2bits s = .next t ∧ exec (.bits2i (8 * n)) t = .next u ∧
      u.rint.toNat = ∑ i ∈ Finset.range n, (s.bytes.getD i 0).toNat * 256 ^ i

/-- R97: byte `k` of a packed sequence depends on bits `8k .. 8k+7` only, and bits `8k .. 8k+7` of an unpacked one on
byte `k` only. -/
def Obligations.PackingWorksOnGroupsOfEight : Prop :=
  (∀ (l₁ l₂ : List Bit) (k : Nat), (∀ j, j < 8 → l₁[8 * k + j]? = l₂[8 * k + j]?) →
    (bitsToBytes l₁)[k]? = (bitsToBytes l₂)[k]?) ∧
  ∀ (l₁ l₂ : List Byte) (k j : Nat), j < 8 → l₁[k]? = l₂[k]? →
    (bytesToBits l₁)[8 * k + j]? = (bytesToBits l₂)[8 * k + j]?

/-! ## The samplers (R102 to R104, R112 to R114) -/

/-- R102: uniform sampling never returns a value at or above `Q`. -/
def Obligations.UniformSamplesAreBelowQ : Prop :=
  (∀ (q : Nat) (b0 b1 b2 : Byte) (z : Nat), coeffFromThreeBytes q b0 b1 b2 = some z → z < q) ∧
  ∀ (s t : State) (b0 b1 b2 : Byte) (c : Word), s.cfg.wf = true → Running s → exec (.c3b b0 b1 b2) s = .next t →
    t.coef = some c → 0 ≤ signed32 c ∧ signed32 c ≤ (s.cfg.q : Int) - 1 ∧ c.extractLsb' 23 9 = 0

/-- R103: each value below `Q` comes from exactly two windows, which differ in the top bit of `b2`. -/
def Obligations.WindowsOfAUniformSample : Prop :=
  ∀ (q z : Nat) (b0 b1 b2 : Byte), q ≤ 8388608 → z < q →
    (coeffFromThreeBytes q b0 b1 b2 = some z ↔
      b0.toNat = z % 256 ∧ b1.toNat = z / 256 % 256 ∧ (b2.toNat = z / 65536 ∨ b2.toNat = z / 65536 + 128))

/-- R104: at the modulus: the candidate `Q - 1` is accepted and the candidate `Q` rejected, for every admissible `Q`;
and the windows of `Q = 8380417` written out. -/
def Obligations.UniformBoundaryAtTheModulus : Prop :=
  (∀ (q : Nat) (b0 b1 b2 : Byte), 1 ≤ q →
    let z := (65536 * b2.toNat + 256 * b1.toNat + b0.toNat) % 2 ^ 23
    (z = q - 1 → coeffFromThreeBytes q b0 b1 b2 = some (q - 1)) ∧
    (z = q → coeffFromThreeBytes q b0 b1 b2 = none)) ∧
  coeffFromThreeBytes 8380417 0x00 0xE0 0x7F = some 8380416 ∧ coeffFromThreeBytes 8380417 0x00 0xE0 0xFF = some 8380416 ∧
  coeffFromThreeBytes 8380417 0x01 0xE0 0x7F = none ∧ coeffFromThreeBytes 8380417 0x01 0xE0 0xFF = none

/-- R112, R113: the two maps in full, with how many nibbles give each value. -/
def Obligations.TheTwoBoundedMaps : Prop :=
  (List.range 15).map (fun b => coeffFromHalfByte b 2) =
    ([2, 1, 0, -1, -2, 2, 1, 0, -1, -2, 2, 1, 0, -1, -2] : List Int).map some ∧
  (List.range 9).map (fun b => coeffFromHalfByte b 4) = ([4, 3, 2, 1, 0, -1, -2, -3, -4] : List Int).map some ∧
  (∀ b, 15 ≤ b → coeffFromHalfByte b 2 = none) ∧ (∀ b, 9 ≤ b → coeffFromHalfByte b 4 = none) ∧
  (∀ v ∈ ([2, 1, 0, -1, -2] : List Int), (List.range 16).countP (fun b => coeffFromHalfByte b 2 == some v) = 3) ∧
  ∀ v ∈ ([4, 3, 2, 1, 0, -1, -2, -3, -4] : List Int),
    (List.range 16).countP (fun b => coeffFromHalfByte b 4 == some v) = 1

/-- R114: bounded sampling accepts only `eta` 2 and 4 and never returns a value outside `[-eta, eta]`. -/
def Obligations.BoundedSamplesAreBounded : Prop :=
  (∀ (b eta : Nat) (c : Int), coeffFromHalfByte b eta = some c →
    (eta = 2 ∨ eta = 4) ∧ -(eta : Int) ≤ c ∧ c ≤ eta) ∧
  ∀ (s t : State) (b eta : Byte) (c : Word), Running s → exec (.chb b eta) s = .next t → t.coef = some c →
    -4 ≤ signed32 c ∧ signed32 c ≤ 4 ∧ -(eta.toNat : Int) ≤ signed32 c ∧ signed32 c ≤ eta.toNat

/-! ## The remaining pseudo-instructions (R62) -/

/-- R62, with R39 and R33: `LDBITS` and `LDBYTES` that skip any of the writes of zero elements leave the sequence they
name, and `GETINT`, `GETBITS`, `GETBYTES` and `GETCOEF` complete with the value the block holds and change nothing, in the
faulted state too. The list of host cycles and the scripts are the model's forms (logs 1 and 15). -/
def Obligations.SparseLoadsAndGetters : Prop :=
  (∀ (s : State) (skip : Nat → Bool) (l : List Bit) (rest : List PortIn), InUse s → Running s →
    l.length ≤ s.cfg.lmax → s.host = ldBitsSkipping skip l ++ rest →
    runSteps (ldBitsSkipping skip l).length s = .next { s with host := rest, rdata := 0, bits := l }) ∧
  (∀ (s : State) (skip : Nat → Bool) (l : List Byte) (rest : List PortIn), InUse s → Running s →
    l.length ≤ s.cfg.nmax → s.host = ldBytesSkipping skip l ++ rest →
    runSteps (ldBytesSkipping skip l).length s = .next { s with host := rest, rdata := 0, bytes := l }) ∧
  ∀ s : State, InUse s → Memory.wf s = true →
    (∃ w, runScript getInt s = .next ({ s with rdata := w }, s.rint.toNat)) ∧
    (∃ w, runScript getBits s = .next ({ s with rdata := w }, s.bits)) ∧
    (∃ w, runScript getBytes s = .next ({ s with rdata := w }, s.bytes)) ∧
    ∃ w, runScript getCoef s = .next ({ s with rdata := w }, s.coef.map signed32)
end

