-- ==== Sys2Proof/Laws/Decode.lean ====
section
/-! SUPPORT. The fields of a word as arithmetic on its value, and all the decoder can answer (R59), said once. -/

namespace Sys2Proof

variable (w : Word)

theorem field_opc : field w 31 28 = w.toNat / 268435456 := by
  have := w.isLt
  simp [field]
  omega

theorem field_rsv : field w 27 24 = w.toNat / 16777216 % 16 := by simp [field]

theorem field_z : field w 23 16 = w.toNat / 65536 % 256 := by simp [field]

theorem field_imm : field w 23 0 = w.toNat % 16777216 := by simp [field]

theorem field_alpha : field w 15 0 = w.toNat % 65536 := by simp [field]

theorem byteField_zero_toNat : (byteField w 0).toNat = w.toNat % 256 := by simp [byteField, field]

theorem byteField_eight_toNat : (byteField w 8).toNat = w.toNat / 256 % 256 := by simp [byteField, field]

theorem byteField_sixteen_toNat : (byteField w 16).toNat = w.toNat / 65536 % 256 := by simp [byteField, field]

/-- A bit slice of a word is the field of the same bits. -/
theorem extractLsb'_toNat_eq_field (lo n : Nat) (h : 0 < n) :
    (w.extractLsb' lo n).toNat = field w (lo + n - 1) lo := by
  rw [BitVec.extractLsb'_toNat, Nat.shiftRight_eq_div_pow, field]
  congr 2
  omega

/-- The decoder's answers by opcode. -/
theorem decode_cases :
    (field w 27 24 ≠ 0 ∧ decode w = .error .rsvNotZero) ∨
    (field w 27 24 = 0 ∧
      ((field w 31 28 = 1 ∧ ((field w 23 16 ≠ 0 ∧ decode w = .error .zNotZero) ∨
          (field w 23 16 = 0 ∧ decode w = .ok (.i2bits (field w 15 0))))) ∨
        (field w 31 28 = 2 ∧ ((field w 23 16 ≠ 0 ∧ decode w = .error .zNotZero) ∨
          (field w 23 16 = 0 ∧ decode w = .ok (.bits2i (field w 15 0))))) ∨
        (field w 31 28 = 3 ∧ ((field w 23 16 ≠ 0 ∧ decode w = .error .zNotZero) ∨
          (field w 23 16 = 0 ∧ decode w = .ok (.i2bytes (field w 15 0))))) ∨
        (field w 31 28 = 4 ∧ ((field w 23 0 ≠ 0 ∧ decode w = .error .zNotZero) ∨
          (field w 23 0 = 0 ∧ decode w = .ok .bits2bytes))) ∨
        (field w 31 28 = 5 ∧ ((field w 23 0 ≠ 0 ∧ decode w = .error .zNotZero) ∨
          (field w 23 0 = 0 ∧ decode w = .ok .bytes2bits))) ∨
        (field w 31 28 = 6 ∧ decode w = .ok (.c3b (byteField w 0) (byteField w 8) (byteField w 16))) ∨
        (field w 31 28 = 7 ∧ ((field w 23 16 ≠ 0 ∧ decode w = .error .zNotZero) ∨
          (field w 23 16 = 0 ∧ decode w = .ok (.chb (byteField w 0) (byteField w 8))))) ∨
        ((field w 31 28 = 0 ∨ 8 ≤ field w 31 28) ∧ decode w = .error .opcode))) := by
  unfold decode
  by_cases h : field w 27 24 = 0
  · refine .inr ⟨h, ?_⟩
    rw [if_neg (by simpa using h)]
    generalize field w 31 28 = o
    by_cases h2 : field w 23 16 = 0 <;> by_cases h3 : field w 23 0 = 0
    all_goals (split <;> simp_all; try omega)
  · exact .inl ⟨h, by simp [h]⟩

end Sys2Proof
end

