-- ==== Sys2Proof/Laws/Functions.lean ====
section
/-! SUPPORT. Lengths and elements of the sequences the conversion functions give. -/

namespace Sys2Proof.Machine

@[simp] theorem length_integerToBits (x alpha : Nat) : (integerToBits x alpha).length = alpha := by
  simp [integerToBits]

@[simp] theorem length_integerToBytes (x alpha : Nat) : (integerToBytes x alpha).length = alpha := by
  simp [integerToBytes]

@[simp] theorem length_bitsToBytes (l : List Bit) : (bitsToBytes l).length = (l.length + 7) / 8 := by
  simp [bitsToBytes]

@[simp] theorem bytesToBits_nil : bytesToBits [] = [] := rfl

@[simp] theorem bytesToBits_cons (v : Byte) (l : List Byte) :
    bytesToBits (v :: l) = integerToBits v.toNat 8 ++ bytesToBits l := rfl

@[simp] theorem length_bytesToBits (l : List Byte) : (bytesToBits l).length = 8 * l.length := by
  induction l with
  | nil => rfl
  | cons v l ih => simp [ih]; omega

@[simp] theorem getElem_integerToBits (x alpha i : Nat) (h : i < (integerToBits x alpha).length) :
    (integerToBits x alpha)[i] = BitVec.ofNat 1 (x / 2 ^ i) := by
  simp [integerToBits]

@[simp] theorem getElem_integerToBytes (x alpha i : Nat) (h : i < (integerToBytes x alpha).length) :
    (integerToBytes x alpha)[i] = BitVec.ofNat 8 (x / 256 ^ i) := by
  simp [integerToBytes]

@[simp] theorem getElem_bitsToBytes (l : List Bit) (k : Nat) (h : k < (bitsToBytes l).length) :
    (bitsToBytes l)[k] = BitVec.ofNat 8 (bitsToInteger (l.drop (8 * k)) 8) := by
  simp [bitsToBytes]

@[simp] theorem bitsToInteger_zero (l : List Bit) : bitsToInteger l 0 = 0 := rfl

@[simp] theorem bitsToInteger_nil (alpha : Nat) : bitsToInteger [] alpha = 0 := by
  simp [bitsToInteger]

@[simp] theorem bitsToInteger_cons (b : Bit) (l : List Bit) (alpha : Nat) :
    bitsToInteger (b :: l) (alpha + 1) = 2 * bitsToInteger l alpha + b.toNat := rfl

/-- R72: the result is in `0 .. 2^alpha - 1`. -/
theorem bitsToInteger_lt (l : List Bit) (alpha : Nat) : bitsToInteger l alpha < 2 ^ alpha := by
  induction alpha generalizing l with
  | zero => simp
  | succ n ih =>
    cases l with
    | nil => simp
    | cons b l =>
      have hb : b.toNat < 2 := b.isLt
      have := ih l
      rw [bitsToInteger_cons, pow_succ]
      omega

end Sys2Proof.Machine
end

