-- ==== Sys2Proof/Laws/State.lean ====
section
/-! SUPPORT. One lemma per field of State per named update: what the update leaves in the field. -/

namespace Sys2Proof.Machine

variable (s : State)

@[simp] theorem raise_cfg (c : Cause) : (raise c s).cfg = s.cfg := rfl
@[simp] theorem raise_ready (c : Cause) : (raise c s).ready = s.ready := rfl
@[simp] theorem raise_x (c : Cause) : (raise c s).x = s.x := rfl
@[simp] theorem raise_rint (c : Cause) : (raise c s).rint = s.rint := rfl
@[simp] theorem raise_coef (c : Cause) : (raise c s).coef = s.coef := rfl
@[simp] theorem raise_fault (c : Cause) : (raise c s).fault = some c := rfl
@[simp] theorem raise_bits (c : Cause) : (raise c s).bits = s.bits := rfl
@[simp] theorem raise_bytes (c : Cause) : (raise c s).bytes = s.bytes := rfl
@[simp] theorem raise_rdata (c : Cause) : (raise c s).rdata = s.rdata := rfl
@[simp] theorem raise_host (c : Cause) : (raise c s).host = s.host := rfl
@[simp] theorem raise_draws (c : Cause) : (raise c s).draws = s.draws := rfl

@[simp] theorem setBits_cfg (v : List Bit) : (setBits v s).cfg = s.cfg := rfl
@[simp] theorem setBits_ready (v : List Bit) : (setBits v s).ready = s.ready := rfl
@[simp] theorem setBits_x (v : List Bit) : (setBits v s).x = s.x := rfl
@[simp] theorem setBits_rint (v : List Bit) : (setBits v s).rint = s.rint := rfl
@[simp] theorem setBits_coef (v : List Bit) : (setBits v s).coef = s.coef := rfl
@[simp] theorem setBits_fault (v : List Bit) : (setBits v s).fault = s.fault := rfl
@[simp] theorem setBits_bits (v : List Bit) : (setBits v s).bits = v := rfl
@[simp] theorem setBits_bytes (v : List Bit) : (setBits v s).bytes = s.bytes := rfl
@[simp] theorem setBits_rdata (v : List Bit) : (setBits v s).rdata = s.rdata := rfl
@[simp] theorem setBits_host (v : List Bit) : (setBits v s).host = s.host := rfl
@[simp] theorem setBits_draws (v : List Bit) : (setBits v s).draws = s.draws := rfl

@[simp] theorem setBytes_cfg (v : List Byte) : (setBytes v s).cfg = s.cfg := rfl
@[simp] theorem setBytes_ready (v : List Byte) : (setBytes v s).ready = s.ready := rfl
@[simp] theorem setBytes_x (v : List Byte) : (setBytes v s).x = s.x := rfl
@[simp] theorem setBytes_rint (v : List Byte) : (setBytes v s).rint = s.rint := rfl
@[simp] theorem setBytes_coef (v : List Byte) : (setBytes v s).coef = s.coef := rfl
@[simp] theorem setBytes_fault (v : List Byte) : (setBytes v s).fault = s.fault := rfl
@[simp] theorem setBytes_bits (v : List Byte) : (setBytes v s).bits = s.bits := rfl
@[simp] theorem setBytes_bytes (v : List Byte) : (setBytes v s).bytes = v := rfl
@[simp] theorem setBytes_rdata (v : List Byte) : (setBytes v s).rdata = s.rdata := rfl
@[simp] theorem setBytes_host (v : List Byte) : (setBytes v s).host = s.host := rfl
@[simp] theorem setBytes_draws (v : List Byte) : (setBytes v s).draws = s.draws := rfl

@[simp] theorem setRint_cfg (v : Nat) : (setRint v s).cfg = s.cfg := rfl
@[simp] theorem setRint_ready (v : Nat) : (setRint v s).ready = s.ready := rfl
@[simp] theorem setRint_x (v : Nat) : (setRint v s).x = s.x := rfl
@[simp] theorem setRint_rint (v : Nat) : (setRint v s).rint = BitVec.ofNat 64 v := rfl
@[simp] theorem setRint_coef (v : Nat) : (setRint v s).coef = s.coef := rfl
@[simp] theorem setRint_fault (v : Nat) : (setRint v s).fault = s.fault := rfl
@[simp] theorem setRint_bits (v : Nat) : (setRint v s).bits = s.bits := rfl
@[simp] theorem setRint_bytes (v : Nat) : (setRint v s).bytes = s.bytes := rfl
@[simp] theorem setRint_rdata (v : Nat) : (setRint v s).rdata = s.rdata := rfl
@[simp] theorem setRint_host (v : Nat) : (setRint v s).host = s.host := rfl
@[simp] theorem setRint_draws (v : Nat) : (setRint v s).draws = s.draws := rfl

@[simp] theorem setCoef_cfg (v : Option Word) : (setCoef v s).cfg = s.cfg := rfl
@[simp] theorem setCoef_ready (v : Option Word) : (setCoef v s).ready = s.ready := rfl
@[simp] theorem setCoef_x (v : Option Word) : (setCoef v s).x = s.x := rfl
@[simp] theorem setCoef_rint (v : Option Word) : (setCoef v s).rint = s.rint := rfl
@[simp] theorem setCoef_coef (v : Option Word) : (setCoef v s).coef = v := rfl
@[simp] theorem setCoef_fault (v : Option Word) : (setCoef v s).fault = s.fault := rfl
@[simp] theorem setCoef_bits (v : Option Word) : (setCoef v s).bits = s.bits := rfl
@[simp] theorem setCoef_bytes (v : Option Word) : (setCoef v s).bytes = s.bytes := rfl
@[simp] theorem setCoef_rdata (v : Option Word) : (setCoef v s).rdata = s.rdata := rfl
@[simp] theorem setCoef_host (v : Option Word) : (setCoef v s).host = s.host := rfl
@[simp] theorem setCoef_draws (v : Option Word) : (setCoef v s).draws = s.draws := rfl

@[simp] theorem setXLo_cfg (v : Word) : (setXLo v s).cfg = s.cfg := rfl
@[simp] theorem setXLo_ready (v : Word) : (setXLo v s).ready = s.ready := rfl
@[simp] theorem setXLo_x (v : Word) : (setXLo v s).x = s.x.extractLsb' 32 32 ++ v := rfl
@[simp] theorem setXLo_rint (v : Word) : (setXLo v s).rint = s.rint := rfl
@[simp] theorem setXLo_coef (v : Word) : (setXLo v s).coef = s.coef := rfl
@[simp] theorem setXLo_fault (v : Word) : (setXLo v s).fault = s.fault := rfl
@[simp] theorem setXLo_bits (v : Word) : (setXLo v s).bits = s.bits := rfl
@[simp] theorem setXLo_bytes (v : Word) : (setXLo v s).bytes = s.bytes := rfl
@[simp] theorem setXLo_rdata (v : Word) : (setXLo v s).rdata = s.rdata := rfl
@[simp] theorem setXLo_host (v : Word) : (setXLo v s).host = s.host := rfl
@[simp] theorem setXLo_draws (v : Word) : (setXLo v s).draws = s.draws := rfl

@[simp] theorem setXHi_cfg (v : Word) : (setXHi v s).cfg = s.cfg := rfl
@[simp] theorem setXHi_ready (v : Word) : (setXHi v s).ready = s.ready := rfl
@[simp] theorem setXHi_x (v : Word) : (setXHi v s).x = v ++ s.x.extractLsb' 0 32 := rfl
@[simp] theorem setXHi_rint (v : Word) : (setXHi v s).rint = s.rint := rfl
@[simp] theorem setXHi_coef (v : Word) : (setXHi v s).coef = s.coef := rfl
@[simp] theorem setXHi_fault (v : Word) : (setXHi v s).fault = s.fault := rfl
@[simp] theorem setXHi_bits (v : Word) : (setXHi v s).bits = s.bits := rfl
@[simp] theorem setXHi_bytes (v : Word) : (setXHi v s).bytes = s.bytes := rfl
@[simp] theorem setXHi_rdata (v : Word) : (setXHi v s).rdata = s.rdata := rfl
@[simp] theorem setXHi_host (v : Word) : (setXHi v s).host = s.host := rfl
@[simp] theorem setXHi_draws (v : Word) : (setXHi v s).draws = s.draws := rfl

@[simp] theorem driveRdata_cfg (v : Word) : (driveRdata v s).cfg = s.cfg := rfl
@[simp] theorem driveRdata_ready (v : Word) : (driveRdata v s).ready = s.ready := rfl
@[simp] theorem driveRdata_x (v : Word) : (driveRdata v s).x = s.x := rfl
@[simp] theorem driveRdata_rint (v : Word) : (driveRdata v s).rint = s.rint := rfl
@[simp] theorem driveRdata_coef (v : Word) : (driveRdata v s).coef = s.coef := rfl
@[simp] theorem driveRdata_fault (v : Word) : (driveRdata v s).fault = s.fault := rfl
@[simp] theorem driveRdata_bits (v : Word) : (driveRdata v s).bits = s.bits := rfl
@[simp] theorem driveRdata_bytes (v : Word) : (driveRdata v s).bytes = s.bytes := rfl
@[simp] theorem driveRdata_rdata (v : Word) : (driveRdata v s).rdata = v := rfl
@[simp] theorem driveRdata_host (v : Word) : (driveRdata v s).host = s.host := rfl
@[simp] theorem driveRdata_draws (v : Word) : (driveRdata v s).draws = s.draws := rfl

@[simp] theorem driveFreeWord_cfg : (driveFreeWord s).cfg = s.cfg := rfl
@[simp] theorem driveFreeWord_ready : (driveFreeWord s).ready = s.ready := rfl
@[simp] theorem driveFreeWord_x : (driveFreeWord s).x = s.x := rfl
@[simp] theorem driveFreeWord_rint : (driveFreeWord s).rint = s.rint := rfl
@[simp] theorem driveFreeWord_coef : (driveFreeWord s).coef = s.coef := rfl
@[simp] theorem driveFreeWord_fault : (driveFreeWord s).fault = s.fault := rfl
@[simp] theorem driveFreeWord_bits : (driveFreeWord s).bits = s.bits := rfl
@[simp] theorem driveFreeWord_bytes : (driveFreeWord s).bytes = s.bytes := rfl
@[simp] theorem driveFreeWord_rdata : (driveFreeWord s).rdata = Config.freeWord s.draws := rfl
@[simp] theorem driveFreeWord_host : (driveFreeWord s).host = s.host := rfl
@[simp] theorem driveFreeWord_draws : (driveFreeWord s).draws = s.draws + 1 := rfl

@[simp] theorem takeCycle_cfg : (takeCycle s).cfg = s.cfg := rfl
@[simp] theorem takeCycle_ready : (takeCycle s).ready = s.ready := rfl
@[simp] theorem takeCycle_x : (takeCycle s).x = s.x := rfl
@[simp] theorem takeCycle_rint : (takeCycle s).rint = s.rint := rfl
@[simp] theorem takeCycle_coef : (takeCycle s).coef = s.coef := rfl
@[simp] theorem takeCycle_fault : (takeCycle s).fault = s.fault := rfl
@[simp] theorem takeCycle_bits : (takeCycle s).bits = s.bits := rfl
@[simp] theorem takeCycle_bytes : (takeCycle s).bytes = s.bytes := rfl
@[simp] theorem takeCycle_rdata : (takeCycle s).rdata = s.rdata := rfl
@[simp] theorem takeCycle_host : (takeCycle s).host = s.host.tail := rfl
@[simp] theorem takeCycle_draws : (takeCycle s).draws = s.draws := rfl

@[simp] theorem pushCommand_cfg (w : Word) : (pushCommand w s).cfg = s.cfg := rfl
@[simp] theorem pushCommand_ready (w : Word) : (pushCommand w s).ready = s.ready := rfl
@[simp] theorem pushCommand_x (w : Word) : (pushCommand w s).x = s.x := rfl
@[simp] theorem pushCommand_rint (w : Word) : (pushCommand w s).rint = s.rint := rfl
@[simp] theorem pushCommand_coef (w : Word) : (pushCommand w s).coef = s.coef := rfl
@[simp] theorem pushCommand_fault (w : Word) : (pushCommand w s).fault = s.fault := rfl
@[simp] theorem pushCommand_bits (w : Word) : (pushCommand w s).bits = s.bits := rfl
@[simp] theorem pushCommand_bytes (w : Word) : (pushCommand w s).bytes = s.bytes := rfl
@[simp] theorem pushCommand_rdata (w : Word) : (pushCommand w s).rdata = s.rdata := rfl
@[simp] theorem pushCommand_host (w : Word) : (pushCommand w s).host = writeCycle 0 w :: s.host := rfl
@[simp] theorem pushCommand_draws (w : Word) : (pushCommand w s).draws = s.draws := rfl

@[simp] theorem resetBlock_cfg : (resetBlock s).cfg = s.cfg := rfl
@[simp] theorem resetBlock_ready : (resetBlock s).ready = true := rfl
@[simp] theorem resetBlock_x : (resetBlock s).x = 0 := rfl
@[simp] theorem resetBlock_rint : (resetBlock s).rint = 0 := rfl
@[simp] theorem resetBlock_coef : (resetBlock s).coef = none := rfl
@[simp] theorem resetBlock_fault : (resetBlock s).fault = none := rfl
@[simp] theorem resetBlock_bits : (resetBlock s).bits = [] := rfl
@[simp] theorem resetBlock_bytes : (resetBlock s).bytes = [] := rfl
@[simp] theorem resetBlock_rdata : (resetBlock s).rdata = 0 := rfl
@[simp] theorem resetBlock_host : (resetBlock s).host = s.host := rfl
@[simp] theorem resetBlock_draws : (resetBlock s).draws = s.draws := rfl

end Sys2Proof.Machine
end

