-- ==== Sys2Proof/Laws/Ops.lean ====
section
/-! SUPPORT. What each shared operation can do, said once, and that every operation on the stored sequences keeps
their form. -/

namespace Sys2Proof.Machine

variable {s t : State}

/-! ## The guard of the faulted state (R127) -/

theorem whileRunning_running (h : Running s) : whileRunning s t = t := by
  simp [whileRunning, h]

theorem whileRunning_faulted {c : Cause} (h : s.fault = some c) : whileRunning s t = s := by
  simp [whileRunning, h]

/-! ## The halves of `X` (R11, R34) -/

theorem setXLo_toNat (v : Word) (s : State) :
    (setXLo v s).x.toNat = s.x.toNat / 2 ^ 32 * 2 ^ 32 + v.toNat := by
  have hx := s.x.isLt
  have e : (s.x.extractLsb' 32 32).toNat = s.x.toNat / 2 ^ 32 := by
    rw [BitVec.extractLsb'_toNat, Nat.shiftRight_eq_div_pow]; omega
  have h : (s.x.extractLsb' 32 32 ++ v).toNat = _ := BitVec.toNat_append (s.x.extractLsb' 32 32) v
  rw [setXLo_x, h, ← Nat.shiftLeft_add_eq_or_of_lt v.isLt, Nat.shiftLeft_eq, e]

theorem setXHi_toNat (v : Word) (s : State) :
    (setXHi v s).x.toNat = v.toNat * 2 ^ 32 + s.x.toNat % 2 ^ 32 := by
  have e : (s.x.extractLsb' 0 32).toNat = s.x.toNat % 2 ^ 32 := by
    rw [BitVec.extractLsb'_toNat, Nat.shiftRight_zero]
  have h : (v ++ s.x.extractLsb' 0 32).toNat = _ := BitVec.toNat_append v (s.x.extractLsb' 0 32)
  rw [setXHi_x, h, ← Nat.shiftLeft_add_eq_or_of_lt (s.x.extractLsb' 0 32).isLt, Nat.shiftLeft_eq, e]

/-! ## Host writes of lengths and elements (R37, R38, R39) -/

theorem writeBlen_cases (n : Word) (s : State) :
    (n.toNat > s.cfg.lmax ∧ writeBlen n s = raise .capacity s) ∨
      (n.toNat ≤ s.cfg.lmax ∧ writeBlen n s = setBits (List.replicate n.toNat 0) s) := by
  unfold writeBlen
  split
  · exact .inl ⟨‹_›, rfl⟩
  · exact .inr ⟨by omega, rfl⟩

theorem writeNlen_cases (n : Word) (s : State) :
    (n.toNat > s.cfg.nmax ∧ writeNlen n s = raise .capacity s) ∨
      (n.toNat ≤ s.cfg.nmax ∧ writeNlen n s = setBytes (List.replicate n.toNat 0) s) := by
  unfold writeNlen
  split
  · exact .inl ⟨‹_›, rfl⟩
  · exact .inr ⟨by omega, rfl⟩

theorem writeBitElem_cases (i : Nat) (v : Word) (s : State) :
    (i ≥ s.bits.length ∧ writeBitElem i v s = raise .indexRange s) ∨
      (i < s.bits.length ∧ v.toNat > 1 ∧ writeBitElem i v s = raise .elemRange s) ∨
      (i < s.bits.length ∧ v.toNat ≤ 1 ∧
        writeBitElem i v s = setBits (s.bits.set i (BitVec.ofNat 1 v.toNat)) s) := by
  unfold writeBitElem State.blen
  split
  · exact .inl ⟨‹_›, rfl⟩
  · split
    · exact .inr (.inl ⟨by omega, ‹_›, rfl⟩)
    · exact .inr (.inr ⟨by omega, by omega, rfl⟩)

theorem writeByteElem_cases (i : Nat) (v : Word) (s : State) :
    (i ≥ s.bytes.length ∧ writeByteElem i v s = raise .indexRange s) ∨
      (i < s.bytes.length ∧ v.toNat > 255 ∧ writeByteElem i v s = raise .elemRange s) ∨
      (i < s.bytes.length ∧ v.toNat ≤ 255 ∧
        writeByteElem i v s = setBytes (s.bytes.set i (BitVec.ofNat 8 v.toNat)) s) := by
  unfold writeByteElem State.nlen
  split
  · exact .inl ⟨‹_›, rfl⟩
  · split
    · exact .inr (.inl ⟨by omega, ‹_›, rfl⟩)
    · exact .inr (.inr ⟨by omega, by omega, rfl⟩)

/-! ## The meanings in the two states (R71 to R111, R127) -/

theorem exec_faulted {c : Cause} (h : s.fault = some c) (i : Instr) : exec i s = .next s := by
  cases i <;>
    simp [exec, execI2bits, execBits2i, execI2bytes, execBits2bytes, execBytes2bits, execC3b, execChb,
      whileRunning_faulted h]

theorem execI2bits_running (h : Running s) (alpha : Nat) :
    exec (.i2bits alpha) s = .next (if alpha > s.cfg.lmax then raise .capacity s
      else setBits (integerToBits s.x.toNat alpha) s) := by
  simp [exec, execI2bits, whileRunning_running h, State.intOperand]

theorem execBits2i_running (h : Running s) (alpha : Nat) :
    exec (.bits2i alpha) s = .next (if alpha > s.bits.length then raise .shortInput s
      else if alpha > 64 then raise .width s else setRint (bitsToInteger s.bits alpha) s) := by
  simp [exec, execBits2i, whileRunning_running h, State.bitsOperand, State.blen]

theorem execI2bytes_running (h : Running s) (alpha : Nat) :
    exec (.i2bytes alpha) s = .next (if alpha > s.cfg.nmax then raise .capacity s
      else setBytes (integerToBytes s.x.toNat alpha) s) := by
  simp [exec, execI2bytes, whileRunning_running h, State.intOperand]

theorem execBits2bytes_running (h : Running s) : exec .bits2bytes s = .next (setBytes (bitsToBytes s.bits) s) := by
  simp [exec, execBits2bytes, whileRunning_running h, State.bitsOperand]

theorem execBytes2bits_running (h : Running s) : exec .bytes2bits s = .next (setBits (bytesToBits s.bytes) s) := by
  simp [exec, execBytes2bits, whileRunning_running h, State.bytesOperand]

theorem execC3b_running (h : Running s) (b0 b1 b2 : Byte) :
    exec (.c3b b0 b1 b2) s = .next (setCoef ((coeffFromThreeBytes s.cfg.q b0 b1 b2).map zext32) s) := by
  simp [exec, execC3b, whileRunning_running h]

theorem execChb_running (h : Running s) (b eta : Byte) :
    exec (.chb b eta) s = .next (setCoef ((coeffFromHalfByte b.toNat eta.toNat).map sext32) s) := by
  simp [exec, execChb, whileRunning_running h]

/-! ## The port (R31, R33, R34, R59, R140) -/

theorem hostRead_cases (slot : Slot) (s : State) :
    (∃ w, readSlot s slot = some w ∧ hostRead slot s = driveRdata w s) ∨
      (slot = .coef ∧ s.coef = none ∧ hostRead slot s = driveFreeWord s) := by
  cases h : readSlot s slot with
  | some w => exact .inl ⟨w, rfl, by simp [hostRead, h]⟩
  | none =>
    refine .inr ⟨?_, ?_, by simp [hostRead, h]⟩
    · cases slot <;> simp_all [readSlot]
    · cases slot <;> simp_all [readSlot]

theorem performCommand_cases (w : Word) (s : State) :
    (∃ i, decode w = .ok i ∧ performCommand w s = exec i s) ∨
      (∃ r, decode w = .error r ∧ performCommand w s = .next (raise .illegalCmd s)) := by
  cases h : decode w with
  | ok i => exact .inl ⟨i, rfl, by simp [performCommand, h]⟩
  | error r => exact .inr ⟨r, rfl, by simp [performCommand, h]⟩

theorem hostWrite_running (h : Running s) (slot : Slot) (v : Word) : hostWrite slot v s = writeSlot slot v s := by
  simp [hostWrite, h]

theorem hostWrite_faulted {c : Cause} (h : s.fault = some c) (slot : Slot) (v : Word) :
    hostWrite slot v s = .next s := by
  simp [hostWrite, h]

/-- A meaning answers a next state and leaves the fields that are not the block's, and `X`, alone. -/
theorem exec_next (i : Instr) (s : State) : ∃ t, exec i s = .next t ∧ t.host = s.host ∧ t.cfg = s.cfg ∧
    t.ready = s.ready ∧ t.rdata = s.rdata ∧ t.draws = s.draws ∧ t.x = s.x := by
  cases hf : s.fault with
  | some c => exact ⟨s, exec_faulted hf i, rfl, rfl, rfl, rfl, rfl, rfl⟩
  | none =>
    cases i with
    | i2bits a => exact ⟨_, execI2bits_running hf a, by split <;> simp⟩
    | bits2i a => exact ⟨_, execBits2i_running hf a, by split <;> [skip; split] <;> simp⟩
    | i2bytes a => exact ⟨_, execI2bytes_running hf a, by split <;> simp⟩
    | bits2bytes => exact ⟨_, execBits2bytes_running hf, by simp⟩
    | bytes2bits => exact ⟨_, execBytes2bits_running hf, by simp⟩
    | c3b a b c => exact ⟨_, execC3b_running hf a b c, by simp⟩
    | chb a b => exact ⟨_, execChb_running hf a b, by simp⟩

/-- A host write answers a next state and leaves the fields that are not the block's alone. -/
theorem hostWrite_next (slot : Slot) (v : Word) (s : State) : ∃ t, hostWrite slot v s = .next t ∧
    t.host = s.host ∧ t.cfg = s.cfg ∧ t.ready = s.ready ∧ t.rdata = s.rdata ∧ t.draws = s.draws := by
  cases hf : s.fault with
  | some c => exact ⟨s, hostWrite_faulted hf slot v, by simp⟩
  | none =>
    rw [hostWrite_running hf]
    cases slot with
    | cmd =>
      obtain ⟨i, _, e⟩ | ⟨r, _, e⟩ := performCommand_cases v s
      · obtain ⟨t, h, hh, hc, hr, hd, hn, _⟩ := exec_next i s
        exact ⟨t, e.trans h, hh, hc, hr, hd, hn⟩
      · exact ⟨_, e, by simp⟩
    | xLo => exact ⟨_, rfl, by simp⟩
    | xHi => exact ⟨_, rfl, by simp⟩
    | blen => exact ⟨_, rfl, by obtain ⟨_, e⟩ | ⟨_, e⟩ := writeBlen_cases v s <;> simp [e]⟩
    | nlen => exact ⟨_, rfl, by obtain ⟨_, e⟩ | ⟨_, e⟩ := writeNlen_cases v s <;> simp [e]⟩
    | byteElem i =>
      exact ⟨_, rfl, by obtain ⟨_, e⟩ | ⟨_, _, e⟩ | ⟨_, _, e⟩ := writeByteElem_cases i v s <;> simp [e]⟩
    | bitElem i =>
      exact ⟨_, rfl, by obtain ⟨_, e⟩ | ⟨_, _, e⟩ | ⟨_, _, e⟩ := writeBitElem_cases i v s <;> simp [e]⟩
    | status => exact ⟨_, rfl, by simp⟩
    | rintLo => exact ⟨_, rfl, by simp⟩
    | rintHi => exact ⟨_, rfl, by simp⟩
    | coef => exact ⟨_, rfl, by simp⟩
    | unmapped => exact ⟨_, rfl, by simp⟩

/-! ## The step (R31, R140, R141, 93 U10) -/

@[simp] theorem atEdge_fault (s : State) : (atEdge s).fault = s.fault := rfl
@[simp] theorem atEdge_cfg (s : State) : (atEdge s).cfg = s.cfg := rfl
@[simp] theorem atEdge_ready (s : State) : (atEdge s).ready = s.ready := rfl
@[simp] theorem atEdge_x (s : State) : (atEdge s).x = s.x := rfl
@[simp] theorem atEdge_rint (s : State) : (atEdge s).rint = s.rint := rfl
@[simp] theorem atEdge_coef (s : State) : (atEdge s).coef = s.coef := rfl
@[simp] theorem atEdge_bits (s : State) : (atEdge s).bits = s.bits := rfl
@[simp] theorem atEdge_bytes (s : State) : (atEdge s).bytes = s.bytes := rfl
@[simp] theorem atEdge_rdata (s : State) : (atEdge s).rdata = 0 := rfl
@[simp] theorem atEdge_host (s : State) : (atEdge s).host = s.host.tail := rfl
@[simp] theorem atEdge_draws (s : State) : (atEdge s).draws = s.draws := rfl

theorem step_reset (hw : s.cfg.wf = true) (hr : s.nextCycle.rst = true) :
    step s = .next (resetBlock (takeCycle s)) := by
  simp [step, cycleStep, hw, portCycle, hr]

theorem step_idle (hw : s.cfg.wf = true) (hr : s.nextCycle.rst = false) (hs : s.nextCycle.sel = false) :
    step s = .next (atEdge s) := by
  simp [step, cycleStep, hw, portCycle, hr, hs, atEdge]

theorem step_read (hu : InUse s) (hr : s.nextCycle.rst = false) (hs : s.nextCycle.sel = true)
    (hwe : s.nextCycle.we = false) : step s = .next (hostRead (slotOf s.nextCycle.addr) (takeCycle s)) := by
  simp [step, cycleStep, hu.1, hu.2, portCycle, hr, hs, hwe]

theorem step_write (hu : InUse s) (hr : s.nextCycle.rst = false) (hs : s.nextCycle.sel = true)
    (hwe : s.nextCycle.we = true) :
    step s = hostWrite (slotOf s.nextCycle.addr) s.nextCycle.wdata (atEdge s) := by
  simp [step, cycleStep, hu.1, hu.2, portCycle, hr, hs, hwe, atEdge]

/-- All a step that answers a next state can have done. -/
theorem step_cases (h : step s = .next t) : s.cfg.wf = true ∧
    ((s.nextCycle.rst = true ∧ t = resetBlock (takeCycle s)) ∨
      (s.nextCycle.rst = false ∧ s.nextCycle.sel = false ∧ t = atEdge s) ∨
      (s.nextCycle.rst = false ∧ s.nextCycle.sel = true ∧ s.nextCycle.we = true ∧ s.ready = true ∧
        hostWrite (slotOf s.nextCycle.addr) s.nextCycle.wdata (atEdge s) = .next t) ∨
      (s.nextCycle.rst = false ∧ s.nextCycle.sel = true ∧ s.nextCycle.we = false ∧ s.ready = true ∧
        t = hostRead (slotOf s.nextCycle.addr) (takeCycle s))) := by
  cases hw : s.cfg.wf with
  | false => simp [step, cycleStep, hw] at h
  | true =>
    refine ⟨rfl, ?_⟩
    cases hr : s.nextCycle.rst with
    | true => exact .inl ⟨rfl, by simpa [step_reset hw hr, eq_comm] using h⟩
    | false =>
      cases hs : s.nextCycle.sel with
      | false => exact .inr (.inl ⟨rfl, rfl, by simpa [step_idle hw hr hs, eq_comm] using h⟩)
      | true =>
        cases hd : s.ready with
        | false => simp [step, cycleStep, hw, portCycle, hr, hs, hd] at h
        | true =>
          cases hwe : s.nextCycle.we with
          | true => exact .inr (.inr (.inl ⟨rfl, rfl, rfl, rfl, (step_write ⟨hw, hd⟩ hr hs hwe).symm.trans h⟩))
          | false =>
            refine .inr (.inr (.inr ⟨rfl, rfl, rfl, rfl, ?_⟩))
            simpa [step_read ⟨hw, hd⟩ hr hs hwe, eq_comm] using h

/-! ## The stored sequences keep their form (R16, R17, R23) -/

theorem Memory.wf_iff : Memory.wf s = true ↔ s.bits.length ≤ s.cfg.lmax ∧ s.bytes.length ≤ s.cfg.nmax := by
  simp [Memory.wf]

theorem wf_reset : Memory.wf State.reset = true := by decide

theorem wf_resetBlock : Memory.wf (resetBlock s) = true := by
  simp [Memory.wf_iff]

theorem wf_setBits {v : List Bit} (h : Memory.wf s = true) (hv : v.length ≤ s.cfg.lmax) :
    Memory.wf (setBits v s) = true := by
  rw [Memory.wf_iff] at h ⊢; exact ⟨hv, h.2⟩

theorem wf_setBytes {v : List Byte} (h : Memory.wf s = true) (hv : v.length ≤ s.cfg.nmax) :
    Memory.wf (setBytes v s) = true := by
  rw [Memory.wf_iff] at h ⊢; exact ⟨h.1, hv⟩

theorem wf_raise {c : Cause} (h : Memory.wf s = true) : Memory.wf (raise c s) = true := h

theorem wf_writeBlen {n : Word} (h : Memory.wf s = true) : Memory.wf (writeBlen n s) = true := by
  obtain ⟨_, e⟩ | ⟨hn, e⟩ := writeBlen_cases n s <;> rw [e]
  · exact wf_raise h
  · exact wf_setBits h (by simpa using hn)

theorem wf_writeNlen {n : Word} (h : Memory.wf s = true) : Memory.wf (writeNlen n s) = true := by
  obtain ⟨_, e⟩ | ⟨hn, e⟩ := writeNlen_cases n s <;> rw [e]
  · exact wf_raise h
  · exact wf_setBytes h (by simpa using hn)

theorem wf_writeBitElem {i : Nat} {v : Word} (h : Memory.wf s = true) : Memory.wf (writeBitElem i v s) = true := by
  obtain ⟨_, e⟩ | ⟨_, _, e⟩ | ⟨_, _, e⟩ := writeBitElem_cases i v s <;> rw [e]
  · exact wf_raise h
  · exact wf_raise h
  · exact wf_setBits h (by simpa using (Memory.wf_iff.mp h).1)

theorem wf_writeByteElem {i : Nat} {v : Word} (h : Memory.wf s = true) : Memory.wf (writeByteElem i v s) = true := by
  obtain ⟨_, e⟩ | ⟨_, _, e⟩ | ⟨_, _, e⟩ := writeByteElem_cases i v s <;> rw [e]
  · exact wf_raise h
  · exact wf_raise h
  · exact wf_setBytes h (by simpa using (Memory.wf_iff.mp h).2)

end Sys2Proof.Machine
end

