-- ==== Sys2Proof/Laws/PerInstr.lean ====
section
/-! SUPPORT. Statements made of every command, one lemma per constructor: the fixed fields of its word. -/

namespace Sys2Proof.Laws

/-- The opcode of a command (R55). -/
def opcode : Instr → Nat
  | .i2bits _ => 1
  | .bits2i _ => 2
  | .i2bytes _ => 3
  | .bits2bytes => 4
  | .bytes2bits => 5
  | .c3b _ _ _ => 6
  | .chb _ _ => 7

/-- The word of a well-formed command carries its opcode in bits 31:28 and 0 in `RSV` (R50, R55). -/
def FixedFields.Statement (i : Instr) : Prop :=
  i.wf = true → field (encode i) 31 28 = opcode i ∧ field (encode i) 27 24 = 0

theorem FixedFields.i2bits (alpha : Nat) : FixedFields.Statement (.i2bits alpha) := by
  intro h
  simp [Instr.wf] at h
  simp [field, encode, opcode]
  omega

theorem FixedFields.bits2i (alpha : Nat) : FixedFields.Statement (.bits2i alpha) := by
  intro h
  simp [Instr.wf] at h
  simp [field, encode, opcode]
  omega

theorem FixedFields.i2bytes (alpha : Nat) : FixedFields.Statement (.i2bytes alpha) := by
  intro h
  simp [Instr.wf] at h
  simp [field, encode, opcode]
  omega

theorem FixedFields.bits2bytes : FixedFields.Statement .bits2bytes := fun _ => by decide

theorem FixedFields.bytes2bits : FixedFields.Statement .bytes2bits := fun _ => by decide

theorem FixedFields.c3b (b0 b1 b2 : Byte) : FixedFields.Statement (.c3b b0 b1 b2) := by
  intro _
  have h0 := b0.isLt
  have h1 := b1.isLt
  have h2 := b2.isLt
  simp [field, encode, opcode]
  omega

theorem FixedFields.chb (b eta : Byte) : FixedFields.Statement (.chb b eta) := by
  intro _
  have h0 := b.isLt
  have h1 := eta.isLt
  simp [field, encode, opcode]
  omega

end Sys2Proof.Laws
end

