-- ==== Sys2Proof/Laws/Script.lean ====
section
/-! SUPPORT. The address map by ranges (R32), and that a named register or slot is where the map has it (R61). -/

namespace Sys2Proof.Machine

/-! ## The map by offset -/

/-- Above the registers the map is the two windows and nothing else (R32). -/
theorem slotAt_above_registers {off : Nat} (h : 0x0020 < off) :
    slotAt off = if 0x1000 ≤ off ∧ off ≤ 0x1FFC then .byteElem ((off - 0x1000) / 4)
      else if 0x8000 ≤ off ∧ off ≤ 0xFFFC then .bitElem ((off - 0x8000) / 4) else .unmapped := by
  unfold slotAt
  iterate 9 rw [if_neg (by omega)]

theorem slotAt_bitWindow {off : Nat} (h : 0x8000 ≤ off) (h' : off ≤ 0xFFFC) :
    slotAt off = .bitElem ((off - 0x8000) / 4) := by
  rw [slotAt_above_registers (by omega), if_neg (by omega), if_pos ⟨h, h'⟩]

theorem slotAt_byteWindow {off : Nat} (h : 0x1000 ≤ off) (h' : off ≤ 0x1FFC) :
    slotAt off = .byteElem ((off - 0x1000) / 4) := by
  rw [slotAt_above_registers (by omega), if_pos ⟨h, h'⟩]

/-- The multiples of 4 outside the registers and the windows are unmapped (R43). -/
theorem slotAt_unmapped {off : Nat} (h : (0x0024 ≤ off ∧ off ≤ 0x0FFC) ∨ (0x2000 ≤ off ∧ off ≤ 0x7FFC)) :
    slotAt off = .unmapped := by
  rw [slotAt_above_registers (by omega), if_neg (by omega), if_neg (by omega)]

theorem slotOf_eq {addr : BitVec 14} {off : Nat} (h : 4 * addr.toNat = off) : slotOf addr = slotAt off := by
  rw [slotOf, h]

/-! ## The notation -/

theorem slotOf_portAddr {off : Nat} (h4 : off % 4 = 0) (h : off < 65536) : slotOf (portAddr off) = slotAt off :=
  slotOf_eq (by rw [portAddr, BitVec.toNat_ofNat]; omega)

theorem slotOf_bitElem {i : Nat} (h : i < 8192) : slotOf (portAddr (Slot.bitElem i).offset) = .bitElem i := by
  rw [Slot.offset, slotOf_portAddr (by omega) (by omega), slotAt_bitWindow (by omega) (by omega)]
  congr 1
  omega

theorem slotOf_byteElem {i : Nat} (h : i < 1024) : slotOf (portAddr (Slot.byteElem i).offset) = .byteElem i := by
  rw [Slot.offset, slotOf_portAddr (by omega) (by omega), slotAt_byteWindow (by omega) (by omega)]
  congr 1
  omega

/-! ## Scripts (R61, R62) -/

/-- A script's read of a word the map gives: the script goes on with that word, and only `rdata` has changed. -/
theorem runScript_rd {α : Type} {s : State} {name : Slot} {w : Word} (next : Word → HostScript α) (hu : InUse s)
    (hw : readSlot s (slotOf (portAddr name.offset)) = some w) :
    runScript (.access (rd name) next) s = runScript (next w) { s with rdata := w } := by
  have e : step { s with host := rd name :: s.host } = .next { s with rdata := w } := by
    refine (step_read (s := { s with host := rd name :: s.host }) hu rfl rfl rfl).trans ?_
    have h : readSlot (takeCycle { s with host := rd name :: s.host }) (slotOf (portAddr name.offset)) = some w := by
      rw [← hw]
      cases slotOf (portAddr name.offset) <;> rfl
    change Host.Outcome.next (hostRead (slotOf (portAddr name.offset)) _) = _
    rw [hostRead, h]
    rfl
  rw [runScript, e]

end Sys2Proof.Machine
end

