-- ==== Sys2Proof/Tests/Slice0.lean ====
section
/-! SUPPORT. Tests of the model on the spec's own vectors (95_test_vectors.md, named S<n> and V<n> as there), the
smoke test of WellFormed, words written out by hand, and for every statement with hypotheses a witness that meets
them. -/

namespace Sys2Proof.Tests

open Sys2Proof.Machine

/-! ## Small states -/

def withX (v : DWord) : State := { State.reset with x := v }
def withBits (l : List Bit) : State := { State.reset with bits := l }
def withBytes (l : List Byte) : State := { State.reset with bytes := l }
def faulted : State := { State.reset with fault := some .illegalCmd }

/-- `s` whose host drives `c` next. -/
def driven (c : PortIn) (s : State) : State := { s with host := [c] }

/-- `s` whose host reads the word at `off` next. -/
def reads (off : Nat) (s : State) : State := driven (readCycle (portAddr off)) s

/-- `s` whose host writes `v` to the word at `off` next. -/
def writes (off v : Nat) (s : State) : State := driven (writeCycle (portAddr off) (BitVec.ofNat 32 v)) s

/-! ## WellFormed refuses an operand that does not fit its field, one term for each check -/

theorem test_wf_i2bits : (Instr.i2bits 65536).wf = false ∧ (Instr.i2bits 65535).wf = true := by decide
theorem test_wf_bits2i : (Instr.bits2i 65536).wf = false ∧ (Instr.bits2i 65535).wf = true := by decide
theorem test_wf_i2bytes : (Instr.i2bytes 65536).wf = false ∧ (Instr.i2bytes 65535).wf = true := by decide
theorem test_assemble_refuses : assemble (.bits2i 65536) = none ∧ assemble (.bits2i 65) = some 0x20000041#32 := by
  decide

/-! ## Decoding: words written out bit by bit from the encodings of 30_encoding.md -/

theorem test_decode_i2bits : decode 0b00010000000000000000000001000110#32 = .ok (.i2bits 70) := by decide
theorem test_decode_bits2i : decode 0b00100000000000000000000001000001#32 = .ok (.bits2i 65) := by decide
theorem test_decode_i2bytes : decode 0b00110000000000001000000000000001#32 = .ok (.i2bytes 32769) := by decide
theorem test_decode_bits2bytes : decode 0b01000000000000000000000000000000#32 = .ok .bits2bytes := by decide
theorem test_decode_bytes2bits : decode 0b01010000000000000000000000000000#32 = .ok .bytes2bits := by decide
theorem test_decode_c3b : decode 0b01100000011111111110000000000001#32 = .ok (.c3b 0x01 0xE0 0x7F) := by decide
theorem test_decode_chb : decode 0b01110000000000000000001000001110#32 = .ok (.chb 14 2) := by decide

/-- V49 to V57: each way to be reserved, by name. -/
theorem test_decode_reserved :
    decode 0x00000000#32 = .error .opcode ∧ decode 0xFFFFFFFF#32 = .error .rsvNotZero ∧
    decode 0x80000000#32 = .error .opcode ∧ decode 0x11000000#32 = .error .rsvNotZero ∧
    decode 0x10010008#32 = .error .zNotZero ∧ decode 0x40000001#32 = .error .zNotZero ∧
    decode 0x50000100#32 = .error .zNotZero ∧ decode 0x70010000#32 = .error .zNotZero ∧
    decode 0x61000000#32 = .error .rsvNotZero := by decide

/-- The host's two questions on one row: the decoder reads the command and the first step after reset runs it. -/
theorem test_table_word : decodeTableWord 32 0x60801234 = some (.c3b 0x34 0x12 0x80) ∧
    step (State.reset.withFetchWord 32 0x60801234) = .next { State.reset with coef := some 0x1234#32 } :=
  ⟨by decide, rfl⟩

/-! ## The commands (at most two each) -/

/-- S1. -/
theorem test_i2bits : ∃ t, exec (.i2bits 8) (withX 16) = .next t ∧ t.bits = [0, 0, 0, 0, 1, 0, 0, 0] :=
  ⟨_, rfl, by decide⟩

/-- V15 against V16: the largest legal length is 512. -/
theorem test_i2bits_capacity : (∃ t, exec (.i2bits 513) State.reset = .next t ∧ t.statusWord = 0x22#32) ∧
    ∃ t, exec (.i2bits 512) State.reset = .next t ∧ t.blen = 512 ∧ t.err = 0 := by
  refine ⟨⟨_, execI2bits_running rfl _, by decide⟩, ⟨_, execI2bits_running rfl _, ?_, ?_⟩⟩
  · rw [if_neg (by decide), State.blen, setBits_bits, length_integerToBits]
  · rw [if_neg (by decide)]; rfl

/-- S2 and V9: only the first `alpha` bits are read. -/
theorem test_bits2i : (∃ t, exec (.bits2i 8) (withBits [0, 0, 0, 0, 1, 0, 0, 0]) = .next t ∧ t.rint = 16) ∧
    ∃ t, exec (.bits2i 2) (withBits [1, 1, 1, 1]) = .next t ∧ t.rint = 3 := ⟨⟨_, rfl, by decide⟩, ⟨_, rfl, by decide⟩⟩

/-- V11, V13, V14: `SHORT_INPUT` before `WIDTH`. -/
theorem test_bits2i_faults :
    (∃ t, exec (.bits2i 9) (withBits [0, 0, 0, 0, 1, 0, 0, 0]) = .next t ∧ t.statusWord = 0x32#32) ∧
    (∃ t, exec (.bits2i 65) (withBits (List.replicate 100 0)) = .next t ∧ t.statusWord = 0x42#32) ∧
    ∃ t, exec (.bits2i 65) (withBits (List.replicate 64 0)) = .next t ∧ t.statusWord = 0x32#32 := by
  and_intros <;> exact ⟨_, rfl, by decide⟩

/-- S3 and V19: zero fill beyond eight bytes. -/
theorem test_i2bytes : (∃ t, exec (.i2bytes 8) (withX 356) = .next t ∧ t.bytes = [100, 1, 0, 0, 0, 0, 0, 0]) ∧
    ∃ t, exec (.i2bytes 10) (withX 0x0123456789ABCDEF) = .next t ∧
      t.bytes = [239, 205, 171, 137, 103, 69, 35, 1, 0, 0] := ⟨⟨_, rfl, by decide⟩, ⟨_, rfl, by decide⟩⟩

/-- V22. -/
theorem test_i2bytes_capacity : ∃ t, exec (.i2bytes 65) State.reset = .next t ∧ t.statusWord = 0x22#32 :=
  ⟨_, rfl, by decide⟩

/-- S4. -/
theorem test_bits2bytes :
    ∃ t, exec .bits2bytes (withBits [0, 1, 1, 0, 0, 1, 1, 0, 0, 1, 1, 0]) = .next t ∧ t.bytes = [102, 6] :=
  ⟨_, rfl, by decide⟩

/-- V24: nine ones; the loop of R90 gives the same. -/
theorem test_bits2bytes_nine : bitsToBytes (List.replicate 9 1) = [255, 1] ∧
    bitsToBytesLoop (List.replicate 9 1) = [255, 1] := by decide

/-- S5. -/
theorem test_bytes2bits : ∃ t, exec .bytes2bits (withBytes [102, 6]) = .next t ∧
    t.bits = [0, 1, 1, 0, 0, 1, 1, 0, 0, 1, 1, 0, 0, 0, 0, 0] := ⟨_, rfl, by decide⟩

/-- S6, S7, S8: the top bit of `b2` is ignored; a candidate above `Q` is rejected. -/
theorem test_c3b : exec (.c3b 0 0 0) State.reset = .next { State.reset with coef := some 0 } ∧
    exec (.c3b 1 0 128) State.reset = .next { State.reset with coef := some 1 } ∧
    exec (.c3b 255 255 127) State.reset = .next State.reset := ⟨rfl, rfl, rfl⟩

/-- V32, V33: the modulus boundary; V42: a reject clears an earlier accept. -/
theorem test_c3b_boundary :
    exec (.c3b 0x00 0xE0 0x7F) State.reset = .next { State.reset with coef := some 0x7FE000#32 } ∧
    exec (.c3b 0x01 0xE0 0x7F) { State.reset with coef := some 1 } = .next State.reset := ⟨rfl, rfl⟩

/-- S9 to S14. -/
theorem test_chb : exec (.chb 0 2) State.reset = .next { State.reset with coef := some 2 } ∧
    exec (.chb 14 2) State.reset = .next { State.reset with coef := some 0xFFFFFFFE#32 } ∧
    exec (.chb 15 2) State.reset = .next State.reset ∧
    exec (.chb 0 4) State.reset = .next { State.reset with coef := some 4 } ∧
    exec (.chb 8 4) State.reset = .next { State.reset with coef := some 0xFFFFFFFC#32 } ∧
    exec (.chb 9 4) State.reset = .next State.reset := ⟨rfl, rfl, rfl, rfl, rfl, rfl⟩

/-- S15, V48 and the table's rows 16 and 255: an unsupported `eta` or a `b` above 15 gives no value and no fault. -/
theorem test_chb_unsupported : exec (.chb 5 3) State.reset = .next State.reset ∧
    exec (.chb 2 255) State.reset = .next State.reset ∧ exec (.chb 16 2) State.reset = .next State.reset ∧
    exec (.chb 255 4) State.reset = .next State.reset := ⟨rfl, rfl, rfl, rfl⟩

/-! ## The port (one cycle each) -/

/-- V58, V60, V61, V62, V63: the faults of the host's own writes. -/
theorem test_write_faults :
    (∃ t, step (writes 0x001C 513 State.reset) = .next t ∧ t.statusWord = 0x22#32 ∧ t.blen = 0) ∧
    (∃ t, step (writes 0x8010 1 (withBits [0, 0, 0, 0])) = .next t ∧ t.statusWord = 0x52#32) ∧
    (∃ t, step (writes 0x800C 2 (withBits [0, 0, 0, 0])) = .next t ∧ t.statusWord = 0x62#32) ∧
    (∃ t, step (writes 0x8010 2 (withBits [0, 0, 0, 0])) = .next t ∧ t.statusWord = 0x52#32) ∧
    ∃ t, step (writes 0x1004 256 (withBytes [0, 0])) = .next t ∧ t.statusWord = 0x62#32 ∧ t.bytes = [0, 0] := by
  and_intros <;> exact ⟨_, rfl, by decide⟩

/-- V69: the halves of `X` are independent. -/
theorem test_write_x_lo : ∃ t, step (writes 0x0008 0x33333333 (withX 0x1111111122222222)) = .next t ∧
    t.x = 0x1111111133333333 := ⟨_, rfl, by decide⟩

/-- V64, V67: a read beyond the length, of `CMD` and of unmapped offsets gives 0. -/
theorem test_reads_zero : (∃ t, step (reads 0x800C (withBits [1, 1, 1])) = .next t ∧ t.rdata = 0) ∧
    (∃ t, step (reads 0x8008 (withBits [1, 1, 1])) = .next t ∧ t.rdata = 1) ∧
    (∃ t, step (reads 0x0024 State.reset) = .next t ∧ t.rdata = 0) ∧
    ∃ t, step (reads 0x0000 State.reset) = .next t ∧ t.rdata = 0 := by
  and_intros <;> exact ⟨_, rfl, by decide⟩

/-- V65: a length write clears the sequence even when the length stays. -/
theorem test_length_write_clears : ∃ t, step (writes 0x001C 3 (withBits [1, 1, 1])) = .next t ∧ t.bits = [0, 0, 0] :=
  ⟨_, rfl, by decide⟩

/-- V68, V70, V71: read-only registers and the faulted state ignore writes; only reset clears a fault. -/
theorem test_ignored_writes :
    (∃ t, step (writes 0x0018 9 { State.reset with coef := some 5 }) = .next t ∧ t.coef = some 5) ∧
    (∃ t, step (writes 0x0008 5 faulted) = .next t ∧ t.x = 0 ∧ t.statusWord = 0x12#32) ∧
    ∃ t, step (driven resetCycle faulted) = .next t ∧ t.statusWord = 0 := by
  and_intros <;> exact ⟨_, rfl, by decide⟩

/-! ## The pseudo-instructions (R62) -/

/-- The writes of the zero elements are skipped, and only those. -/
theorem test_sparse_load : ldBitsSkipping (fun _ => true) [0, 1, 0] = [wr .blen 3, wr (.bitElem 1) 1] ∧
    ldBits [0, 1] = [wr .blen 2, wr (.bitElem 0) 0, wr (.bitElem 1) 1] := by decide

/-- `GETBITS` gives the sequence, and `GETCOEF` a negative coefficient or none. -/
theorem test_getters : (∃ t, runScript getBits (withBits [1, 0, 1]) = .next (t, [1, 0, 1])) ∧
    (∃ t, runScript getCoef { State.reset with coef := some 0xFFFFFFFE#32 } = .next (t, some (-2))) ∧
    ∃ t, runScript getCoef State.reset = .next (t, none) := ⟨⟨_, rfl⟩, ⟨_, rfl⟩, ⟨_, rfl⟩⟩

/-! ## Witnesses: for each statement with hypotheses, data that meet them -/

/-- The hypotheses of a read cycle. -/
abbrev ReadHyps (s : State) : Prop :=
  InUse s ∧ s.nextCycle.rst = false ∧ s.nextCycle.sel = true ∧ s.nextCycle.we = false

/-- The hypotheses of a write cycle on a running block. -/
abbrev WriteHyps (s : State) : Prop :=
  InUse s ∧ Running s ∧ s.nextCycle.rst = false ∧ s.nextCycle.sel = true ∧ s.nextCycle.we = true

theorem witness_OnlyResetLeavesTheFaultedState :
    ((driven resetCycle faulted).cfg.wf = true ∧ (driven resetCycle faulted).nextCycle.rst = true) ∧
    (reads 4 faulted).fault = some .illegalCmd ∧ (reads 4 faulted).nextCycle.rst = false ∧
    ∃ t, step (reads 4 faulted) = .next t := ⟨by decide, by decide, by decide, _, rfl⟩

theorem witness_FaultedBlockIsFrozen :
    (InUse (writes 8 5 faulted) ∧ (writes 8 5 faulted).fault = some .illegalCmd ∧
      (writes 8 5 faulted).nextCycle.rst = false ∧ (writes 8 5 faulted).nextCycle.sel = true ∧
      (writes 8 5 faulted).nextCycle.we = true) ∧
    ReadHyps (reads 4 faulted) ∧ (reads 4 faulted).fault = some .illegalCmd ∧
    readSlot (reads 4 faulted) (slotOf (reads 4 faulted).nextCycle.addr) = some 0x12#32 := by decide

theorem witness_CycleFollowsThePins :
    (InUse State.reset ∧ State.reset.nextCycle.rst = false ∧ State.reset.nextCycle.sel = false) ∧
    ReadHyps (reads 4 State.reset) ∧ WriteHyps (writes 8 5 State.reset) ∧
    ∃ t, step (writes 8 5 State.reset) = .next t := ⟨by decide, by decide, by decide, _, rfl⟩

theorem witness_EveryCycleCompletes : InUse State.reset := by decide

theorem witness_StepRefusesExactlyWhen :
    step { State.reset with cfg := { q := 0, nmax := 64 } } = .refused .configOutOfRange ∧
    step (reads 4 { State.reset with ready := false }) = .refused .accessBeforeReset := ⟨rfl, rfl⟩

theorem witness_StepKeepsInv :
    5 ≤ (writes 0 0x70000400 State.reset).cfg.q ∧ BlockInv (writes 0 0x70000400 State.reset) ∧
    ∃ t, step (writes 0 0x70000400 State.reset) = .next t := ⟨by decide, ⟨by decide, trivial⟩, _, rfl⟩

theorem witness_NoHiddenState :
    let s₁ := reads 4 State.reset
    let s₂ := { reads 4 State.reset with rdata := 7, draws := 3, host := [readCycle 1, resetCycle] }
    s₁.cfg = s₂.cfg ∧ SameBlock s₁ s₂ ∧ s₁.nextCycle = s₂.nextCycle ∧
      (∃ t, step s₁ = .next t) ∧ ∃ t, step s₂ = .next t :=
  ⟨rfl, ⟨rfl, rfl, rfl, rfl, rfl, rfl⟩, rfl, ⟨_, rfl⟩, ⟨_, rfl⟩⟩

/-- Each clause's premise is met by some cycle. -/
theorem witness_WhoWritesEachElement :
    (∃ t, step (writes 8 5 State.reset) = .next t ∧ t.x ≠ 0) ∧
    (∃ t, step (writes 0 0x20000001 (withBits [1])) = .next t ∧ t.rint ≠ 0) ∧
    (∃ t, step (writes 0 0x60000005 State.reset) = .next t ∧ t.coef ≠ none) ∧
    (∃ t, step (writes 0 0x70000200 State.reset) = .next t ∧ t.coef ≠ none) ∧
    (∃ t, step (writes 0x1C 1 State.reset) = .next t ∧ t.bits ≠ []) ∧
    (∃ t, step (writes 0x20 1 State.reset) = .next t ∧ t.bytes ≠ []) ∧
    ∃ t, step (writes 0 0 State.reset) = .next t ∧ t.fault ≠ none := by
  and_intros <;> exact ⟨_, rfl, by decide⟩

/-- Every row of the map, at the ends of its ranges, with an element inside and one beyond the length. -/
theorem witness_ReadReturnsTheMap :
    let s : State := { State.reset with bits := [1], bytes := [7], coef := some 5 }
    Memory.wf s = true ∧ s.coef = some 5 ∧
    ∀ off ∈ [0, 4, 8, 0xC, 0x10, 0x14, 0x18, 0x1C, 0x20, 0x24, 0xFFC, 0x1000, 0x1FFC, 0x2000, 0x7FFC, 0x8000, 0xFFFC],
      ReadHyps (reads off s) ∧ 4 * (reads off s).nextCycle.addr.toNat = off := by decide

theorem witness_CoefWithoutValueReadsAFreeWord :
    ReadHyps (reads 0x18 State.reset) ∧ (reads 0x18 State.reset).coef = none ∧
    4 * (reads 0x18 State.reset).nextCycle.addr.toNat = 0x18 := by decide

theorem witness_GetcoefGivesTheOptionalResult :
    (∀ c, readSlot { State.reset with coef := some 5 } .coef = some c → (5 : Word) = c) ∧
    ∀ c, readSlot State.reset .coef = some c → (9 : Word) = c :=
  ⟨fun _ h => by cases h; rfl, fun _ h => by cases h⟩

theorem witness_WritesToTheHalvesOfX :
    (WriteHyps (writes 8 5 State.reset) ∧ 4 * (writes 8 5 State.reset).nextCycle.addr.toNat = 8) ∧
    WriteHyps (writes 0xC 5 State.reset) ∧ 4 * (writes 0xC 5 State.reset).nextCycle.addr.toNat = 0xC := by decide

/-- Each clause at its boundary: index at and below the length, value 1 and 2. -/
theorem witness_WriteOfABitElement :
    let hyps := fun (i v : Nat) => WriteHyps (writes (0x8000 + 4 * i) v (withBits [0, 0, 0])) ∧ i < 8192 ∧
      4 * (writes (0x8000 + 4 * i) v (withBits [0, 0, 0])).nextCycle.addr.toNat = 0x8000 + 4 * i ∧
      (writes (0x8000 + 4 * i) v (withBits [0, 0, 0])).nextCycle.wdata.toNat = v
    hyps 3 0 ∧ hyps 8191 0 ∧ hyps 2 2 ∧ hyps 2 1 ∧ (withBits [0, 0, 0]).bits.length = 3 := by decide

theorem witness_WriteOfAByteElement :
    let hyps := fun (i v : Nat) => WriteHyps (writes (0x1000 + 4 * i) v (withBytes [0, 0, 0])) ∧ i < 1024 ∧
      4 * (writes (0x1000 + 4 * i) v (withBytes [0, 0, 0])).nextCycle.addr.toNat = 0x1000 + 4 * i ∧
      (writes (0x1000 + 4 * i) v (withBytes [0, 0, 0])).nextCycle.wdata.toNat = v
    hyps 3 0 ∧ hyps 1023 0 ∧ hyps 2 256 ∧ hyps 2 255 ∧ (withBytes [0, 0, 0]).bytes.length = 3 := by decide

/-- Lengths at the capacity and one above it. -/
theorem witness_WriteOfALength :
    let hyps := fun (off n : Nat) => WriteHyps (writes off n State.reset) ∧
      4 * (writes off n State.reset).nextCycle.addr.toNat = off ∧ (writes off n State.reset).nextCycle.wdata.toNat = n
    hyps 0x1C 512 ∧ hyps 0x1C 513 ∧ hyps 0x20 64 ∧ hyps 0x20 65 ∧ 8 * State.reset.cfg.nmax = 512 := by decide

theorem witness_UnmappedAndReadOnlyOffsets :
    (∀ off ∈ [0x24, 0xFFC, 0x2000, 0x7FFC], ReadHyps (reads off State.reset) ∧
      4 * (reads off State.reset).nextCycle.addr.toNat = off) ∧
    ∀ off ∈ [0x24, 0xFFC, 0x2000, 0x7FFC, 4, 0x10, 0x14, 0x18], WriteHyps (writes off 9 State.reset) ∧
      4 * (writes off 9 State.reset).nextCycle.addr.toNat = off := by decide

theorem witness_SlotsBeyondTheCapacity :
    Memory.wf State.reset = true ∧ 8 * State.reset.cfg.nmax ≤ 512 ∧ State.reset.cfg.nmax ≤ 64 := by decide

theorem witness_LoadingAnOperand :
    (InUse { State.reset with host := setX (2 ^ 64 - 1) ++ [] } ∧ 2 ^ 64 - 1 < 2 ^ 64) ∧
    (InUse { State.reset with host := ldBits [1, 0, 1] ++ [] } ∧ [1, 0, 1].length ≤ State.reset.cfg.lmax) ∧
    InUse { State.reset with host := ldBytes [255, 0] ++ [] } ∧ [255, 0].length ≤ State.reset.cfg.nmax ∧
    Running State.reset := by decide

/-- A faulted block, and a running one with a word of every kind: each opcode, each reserved form. -/
theorem witness_CommandWriteDecodes :
    (InUse (writes 0 0 faulted) ∧ (writes 0 0 faulted).nextCycle.addr = 0 ∧ faulted.fault = some .illegalCmd) ∧
    ∀ w ∈ [0x10000008, 0x20000008, 0x30000008, 0x40000000, 0x50000000, 0x60800001, 0x7000020E, 0x00000000, 0x80000000,
        0x11000000, 0x10010000, 0x40000001],
      WriteHyps (writes 0 w State.reset) ∧ (writes 0 w State.reset).nextCycle.addr = 0 := by decide

theorem witness_ReservedWordsFault : decode 0x00000000#32 = .error .opcode ∧ Running State.reset := by decide

theorem witness_DecodeOfEncode : (Instr.bits2i 65535).wf = true := by decide

theorem witness_EncodeOfDecode : decode 0x7000FFFF#32 = .ok (.chb 255 255) := by decide

theorem witness_StepRunsTheDecodedCommand :
    (WriteHyps (writes 0 0x40000000 State.reset) ∧ (writes 0 0x40000000 State.reset).nextCycle.addr = 0 ∧
      decode (writes 0 0x40000000 State.reset).nextCycle.wdata = .ok .bits2bytes) ∧
    (InUse State.reset ∧ Running State.reset ∧ decodeTableWord 32 0x10000008 = some (.i2bits 8)) ∧
    InUse (driven (commandLine (.i2bits 8)) State.reset) ∧ (Instr.i2bits 8).wf = true := by decide

/-- Every command result statement's premise, at the boundaries of its clauses, on a running block. -/
theorem witness_I2bitsResult : Running State.reset ∧ 8 * State.reset.cfg.nmax < 513 ∧ 512 ≤ 8 * State.reset.cfg.nmax ∧
    65535 < 65536 := by decide

theorem witness_Bits2iResult : Running (withBits (List.replicate 65 1)) ∧ (withBits (List.replicate 65 1)).bits.length < 66 ∧
    65 ≤ (withBits (List.replicate 65 1)).bits.length ∧ 64 < 65 ∧ 64 ≤ (withBits (List.replicate 65 1)).bits.length := by
  decide

theorem witness_I2bytesResult : Running State.reset ∧ State.reset.cfg.nmax < 65 ∧ 64 ≤ State.reset.cfg.nmax := by decide

theorem witness_Bits2bytesResult : Running (withBits [1, 0, 1]) ∧ Memory.wf (withBits [1, 0, 1]) = true := by decide

theorem witness_Bytes2bitsResult : Running (withBytes [102, 6]) ∧ Memory.wf (withBytes [102, 6]) = true := by decide

/-- `z = Q - 1` and `z = Q`. -/
theorem witness_C3bResult : Running State.reset ∧
    (65536 * (0x7F#8).toNat + 256 * (0xE0#8).toNat + (0x00#8).toNat) % 2 ^ 23 < State.reset.cfg.q ∧
    State.reset.cfg.q ≤ (65536 * (0x7F#8).toNat + 256 * (0xE0#8).toNat + (0x01#8).toNat) % 2 ^ 23 := by decide

/-- The last nibble accepted and the first rejected for each `eta`. -/
theorem witness_ChbResult : Running State.reset ∧ ((2#8).toNat = 2 ∧ (14#8).toNat < 15) ∧
    ((4#8).toNat = 4 ∧ (8#8).toNat < 9) ∧
    (¬((2#8).toNat = 2 ∧ (15#8).toNat < 15) ∧ ¬((2#8).toNat = 4 ∧ (15#8).toNat < 9)) ∧
    ¬((4#8).toNat = 2 ∧ (9#8).toNat < 15) ∧ ¬((4#8).toNat = 4 ∧ (9#8).toNat < 9) := by decide

theorem witness_CommandFrame : (∃ t, exec (.i2bits 8) (withX 16) = .next t ∧ t.fault = (withX 16).fault) ∧
    destination (.i2bits 8) .status = false ∧ destination (.i2bits 8) (.byteElem 0) = false ∧
    destination (.c3b 0 0 0) .blen = false := ⟨⟨_, rfl, rfl⟩, by decide⟩

/-- Clause by clause: two running blocks that differ in everything but the input. -/
theorem witness_ResultsDependOnNamedInputs :
    let s₁ : State := { State.reset with x := 5, bits := [1], bytes := [3] }
    let s₂ : State := { State.reset with x := 5, bits := [1], bytes := [3], rint := 9, coef := some 1 }
    s₁.cfg = s₂.cfg ∧ Running s₁ ∧ Running s₂ ∧ s₁.x = s₂.x ∧ s₁.bits = s₂.bits ∧ s₁.bytes = s₂.bytes ∧
    ∀ i : Instr, (∃ t, exec i s₁ = .next t) ∧ ∃ t, exec i s₂ = .next t :=
  ⟨rfl, rfl, rfl, rfl, rfl, rfl, fun i => ⟨let ⟨t, h, _⟩ := exec_next i _; ⟨t, h⟩, let ⟨t, h, _⟩ := exec_next i _; ⟨t, h⟩⟩⟩

theorem witness_ThreeOutcomesOfACommand :
    ∀ w ∈ [0x60000000, 0x607FFFFF, 0x00000000], WriteHyps (writes 0 w State.reset) ∧
      (writes 0 w State.reset).nextCycle.addr = 0 := by decide

/-- One cycle for each cause. -/
theorem witness_FaultsAreThoseOfTheTable :
    (∃ t, step (writes 0 0 State.reset) = .next t ∧ t.fault = some .illegalCmd) ∧
    (∃ t, step (writes 0x20 65 State.reset) = .next t ∧ t.fault = some .capacity) ∧
    (∃ t, step (writes 0 0x20000001 State.reset) = .next t ∧ t.fault = some .shortInput) ∧
    (∃ t, step (writes 0 0x20000041 (withBits (List.replicate 65 0))) = .next t ∧ t.fault = some .width) ∧
    (∃ t, step (writes 0x8000 0 State.reset) = .next t ∧ t.fault = some .indexRange) ∧
    (∃ t, step (writes 0x8000 2 (withBits [0])) = .next t ∧ t.fault = some .elemRange) ∧
    WriteHyps (writes 0 0 State.reset) := by
  and_intros <;> first | exact ⟨_, rfl, by decide⟩ | decide

theorem witness_FaultsArePrecise :
    Running (writes 0 0 State.reset) ∧ ∃ t, step (writes 0 0 State.reset) = .next t ∧ t.fault = some .illegalCmd :=
  ⟨rfl, _, rfl, by decide⟩

theorem witness_RoundTripOfTheBitConverter : Running (withX 300) ∧ 64 ≤ 64 ∧ 64 ≤ (withX 300).cfg.lmax := by decide

theorem witness_InverseRoundTripOfTheBitConverter : 2 ≤ ([1, 0, 1] : List Bit).length := by decide

theorem witness_IntegerOfAnyBits : 3 ≤ ([1, 0, 1] : List Bit).length := by decide

theorem witness_PackThenUnpack : Running (withBits (List.replicate 16 1)) ∧
    (withBits (List.replicate 16 1)).bits.length % 8 = 0 := by decide

theorem witness_IntegerOfBytesByTwoCommands :
    Running (withBytes [100, 1, 0, 0, 0, 0, 0, 0]) ∧ 8 ≤ 8 ∧ 8 ≤ (withBytes [100, 1, 0, 0, 0, 0, 0, 0]).bytes.length := by
  decide

theorem witness_PackingWorksOnGroupsOfEight :
    (∀ j, j < 8 → ([1, 0, 1] : List Bit)[8 * 0 + j]? = ([1, 0, 1] : List Bit)[8 * 0 + j]?) ∧
    (7 < 8 ∧ ([3, 4] : List Byte)[0]? = ([3, 5] : List Byte)[0]?) := ⟨fun _ _ => rfl, by decide⟩

theorem witness_UniformSamplesAreBelowQ :
    coeffFromThreeBytes 8380417 0x00 0xE0 0x7F = some 8380416 ∧ State.reset.cfg.wf = true ∧ Running State.reset ∧
    ∃ t, exec (.c3b 0x00 0xE0 0x7F) State.reset = .next t ∧ t.coef = some 0x7FE000#32 :=
  ⟨by decide, by decide, rfl, _, rfl, rfl⟩

theorem witness_WindowsOfAUniformSample : 8380417 ≤ 8388608 ∧ 8380416 < 8380417 := by decide

theorem witness_UniformBoundaryAtTheModulus : 1 ≤ 8380417 ∧
    (65536 * (0x7F#8).toNat + 256 * (0xE0#8).toNat + (0x00#8).toNat) % 2 ^ 23 = 8380417 - 1 ∧
    (65536 * (0x7F#8).toNat + 256 * (0xE0#8).toNat + (0x01#8).toNat) % 2 ^ 23 = 8380417 := by decide

theorem witness_TheTwoBoundedMaps : 15 ≤ 15 ∧ 9 ≤ 9 := by decide

theorem witness_BoundedSamplesAreBounded : coeffFromHalfByte 8 4 = some (-4) ∧ Running State.reset ∧
    ∃ t, exec (.chb 8 4) State.reset = .next t ∧ t.coef = some 0xFFFFFFFC#32 := ⟨by decide, rfl, _, rfl, rfl⟩

theorem witness_SparseLoadsAndGetters :
    (InUse { State.reset with host := ldBitsSkipping (fun _ => true) [1, 0, 1] ++ [] } ∧
      [1, 0, 1].length ≤ State.reset.cfg.lmax) ∧
    (InUse { State.reset with host := ldBytesSkipping (fun i => i == 1) [255, 0] ++ [] } ∧
      [255, 0].length ≤ State.reset.cfg.nmax) ∧
    Running State.reset ∧ InUse (withBits [1, 0, 1]) ∧ Memory.wf (withBits [1, 0, 1]) = true := by decide

end Sys2Proof.Tests
end

section
/-! SUPPORT. What a step refuses (R141, 93 U2 and U10). -/

namespace Sys2Proof.Machine

variable {s t : State}

/-- A step or a command answers one state. -/
theorem next_unique {r : Result} {u : State} (h : r = .next t) (h' : r = .next u) : t = u := by
  cases h.symm.trans h'
  rfl

theorem step_configOutOfRange (hw : s.cfg.wf = false) : step s = .refused .configOutOfRange := by
  simp [step, cycleStep, hw]

theorem step_accessBeforeReset (hw : s.cfg.wf = true) (hd : s.ready = false) (hr : s.nextCycle.rst = false)
    (hs : s.nextCycle.sel = true) : step s = .refused .accessBeforeReset := by
  simp [step, cycleStep, hw, portCycle, hr, hs, hd]

/-- With an admissible configuration, a reset cycle, an idle cycle and any cycle after a reset are performed. -/
theorem step_next (hw : s.cfg.wf = true)
    (h : s.nextCycle.rst = true ∨ s.nextCycle.sel = false ∨ s.ready = true) : ∃ t, step s = .next t := by
  cases hr : s.nextCycle.rst with
  | true => exact ⟨_, step_reset hw hr⟩
  | false =>
    cases hs : s.nextCycle.sel with
    | false => exact ⟨_, step_idle hw hr hs⟩
    | true =>
      have hu : InUse s := ⟨hw, by simpa [hr, hs] using h⟩
      cases hwe : s.nextCycle.we with
      | true =>
        obtain ⟨t, e, _⟩ := hostWrite_next (slotOf s.nextCycle.addr) s.nextCycle.wdata (atEdge s)
        exact ⟨t, (step_write hu hr hs hwe).trans e⟩
      | false => exact ⟨_, step_read hu hr hs hwe⟩

end Sys2Proof.Machine

open Sys2Proof.Machine

/-- Settles O6: a step outside the two refusing cases answers a next state (`step_next`). -/
theorem stepRefusesExactlyWhen : Obligations.StepRefusesExactlyWhen := by
  intro s r
  constructor
  · intro h
    cases hw : s.cfg.wf with
    | false =>
      rw [step_configOutOfRange hw] at h
      cases h
      exact .inl ⟨rfl, rfl⟩
    | true =>
      by_cases hn : s.nextCycle.rst = true ∨ s.nextCycle.sel = false ∨ s.ready = true
      · obtain ⟨t, e⟩ := step_next hw hn
        cases e.symm.trans h
      · obtain ⟨hr, hs, hd⟩ : s.nextCycle.rst = false ∧ s.nextCycle.sel = true ∧ s.ready = false := by
          simpa using hn
        rw [step_accessBeforeReset hw hd hr hs] at h
        cases h
        exact .inr ⟨rfl, rfl, hd, hr, hs⟩
  · rintro (⟨rfl, hw⟩ | ⟨rfl, hw, hd, hr, hs⟩)
    · exact step_configOutOfRange hw
    · exact step_accessBeforeReset hw hd hr hs

end

section
/-! SUPPORT. What a command leaves unchanged, seen through the host's reads (R8, R33, D25). -/

namespace Sys2Proof.Machine

variable {s t : State} {slot : Slot}

theorem readSlot_raise (c : Cause) (h : slot ≠ .status) : readSlot (raise c s) slot = readSlot s slot := by
  cases slot with
  | status => exact absurd rfl h
  | _ => rfl

theorem readSlot_setBits (v : List Bit) (h : bitsSlot slot = false) :
    readSlot (setBits v s) slot = readSlot s slot := by
  cases slot with
  | blen | bitElem _ => cases h
  | _ => rfl

theorem readSlot_setBytes (v : List Byte) (h : bytesSlot slot = false) :
    readSlot (setBytes v s) slot = readSlot s slot := by
  cases slot with
  | nlen | byteElem _ => cases h
  | _ => rfl

theorem readSlot_setRint (v : Nat) (h : rintSlot slot = false) :
    readSlot (setRint v s) slot = readSlot s slot := by
  cases slot with
  | rintLo | rintHi => cases h
  | _ => rfl

theorem readSlot_setCoef (v : Option Word) (h : sampleSlot slot = false) :
    readSlot (setCoef v s) slot = readSlot s slot := by
  cases slot with
  | status | coef => cases h
  | _ => rfl

/-- All a command can have done: nothing where the block is faulted, else a fault or the write of its destination. -/
theorem exec_cases {i : Instr} (h : exec i s = .next t) :
    t = s ∨ (Running s ∧ ∃ c, t = raise c s) ∨
      (destination i = bitsSlot ∧ ∃ v, t = setBits v s) ∨ (destination i = bytesSlot ∧ ∃ v, t = setBytes v s) ∨
      (destination i = rintSlot ∧ ∃ v, t = setRint v s) ∨ (destination i = sampleSlot ∧ ∃ v, t = setCoef v s) := by
  cases hf : s.fault with
  | some c =>
    exact .inl (next_unique h (exec_faulted hf i))
  | none =>
    refine .inr ?_
    cases i with
    | i2bits alpha =>
      obtain rfl := next_unique h (execI2bits_running hf ..)
      split
      · exact .inl ⟨hf, _, rfl⟩
      · exact .inr (.inl ⟨rfl, _, rfl⟩)
    | bits2i alpha =>
      obtain rfl := next_unique h (execBits2i_running hf ..)
      split
      · exact .inl ⟨hf, _, rfl⟩
      · split
        · exact .inl ⟨hf, _, rfl⟩
        · exact .inr (.inr (.inr (.inl ⟨rfl, _, rfl⟩)))
    | i2bytes alpha =>
      obtain rfl := next_unique h (execI2bytes_running hf ..)
      split
      · exact .inl ⟨hf, _, rfl⟩
      · exact .inr (.inr (.inl ⟨rfl, _, rfl⟩))
    | bits2bytes =>
      obtain rfl := next_unique h (execBits2bytes_running hf ..)
      exact .inr (.inr (.inl ⟨rfl, _, rfl⟩))
    | bytes2bits =>
      obtain rfl := next_unique h (execBytes2bits_running hf ..)
      exact .inr (.inl ⟨rfl, _, rfl⟩)
    | c3b b0 b1 b2 =>
      obtain rfl := next_unique h (execC3b_running hf ..)
      exact .inr (.inr (.inr (.inr ⟨rfl, _, rfl⟩)))
    | chb b eta =>
      obtain rfl := next_unique h (execChb_running hf ..)
      exact .inr (.inr (.inr (.inr ⟨rfl, _, rfl⟩)))

/-- A word outside the command's destination reads as before, `STATUS` where the fault flags did not change. -/
theorem readSlot_exec {i : Instr} (h : exec i s = .next t) (hd : destination i slot = false)
    (hs : slot = .status → t.fault = s.fault) : readSlot t slot = readSlot s slot := by
  obtain rfl | ⟨hf, c, rfl⟩ | ⟨e, v, rfl⟩ | ⟨e, v, rfl⟩ | ⟨e, v, rfl⟩ | ⟨e, v, rfl⟩ := exec_cases h
  · rfl
  · exact readSlot_raise c fun hslot => by simpa [hf] using hs hslot
  · exact readSlot_setBits v (e ▸ hd)
  · exact readSlot_setBytes v (e ▸ hd)
  · exact readSlot_setRint v (e ▸ hd)
  · exact readSlot_setCoef v (e ▸ hd)

end Sys2Proof.Machine

open Sys2Proof.Machine

/-- Settles O37: the words of the map by `readSlot_exec`, the other fields by `exec_next`. -/
theorem commandFrame : Obligations.CommandFrame := by
  intro i s t h
  refine ⟨fun slot hd hs => readSlot_exec h hd hs, ?_⟩
  obtain ⟨u, e, hhost, hcfg, hready, hrdata, hdraws, hx⟩ := exec_next i s
  obtain rfl := next_unique h e
  exact ⟨hx, hcfg, hready, hrdata, hhost, hdraws⟩

end

section
/-! SUPPORT. A command's result as a function of its operands (R8). -/

open Sys2Proof Sys2Proof.Machine

/-- Settles O38: each result is one expression in the parameters and the named input, which agree. -/
theorem resultsDependOnNamedInputs : Obligations.ResultsDependOnNamedInputs := by
  intro s₁ s₂ t₁ t₂ hc h₁ h₂
  refine ⟨fun α e₁ e₂ hx => ?i2bits, fun α e₁ e₂ hb => ?bits2i, fun α e₁ e₂ hx => ?i2bytes,
    fun e₁ e₂ hb => ?bits2bytes, fun e₁ e₂ hb => ?bytes2bits, fun b0 b1 b2 e₁ e₂ => ?c3b, fun b eta e₁ e₂ => ?chb⟩
  case i2bits =>
    obtain rfl := next_unique e₁ (execI2bits_running h₁ α)
    obtain rfl := next_unique e₂ (execI2bits_running h₂ α)
    rw [hc, hx]
    split <;> simp [h₁, h₂]
  case bits2i =>
    obtain rfl := next_unique e₁ (execBits2i_running h₁ α)
    obtain rfl := next_unique e₂ (execBits2i_running h₂ α)
    rw [hb]
    split <;> [skip; split] <;> simp [h₁, h₂]
  case i2bytes =>
    obtain rfl := next_unique e₁ (execI2bytes_running h₁ α)
    obtain rfl := next_unique e₂ (execI2bytes_running h₂ α)
    rw [hc, hx]
    split <;> simp [h₁, h₂]
  case bits2bytes =>
    obtain rfl := next_unique e₁ (execBits2bytes_running h₁)
    obtain rfl := next_unique e₂ (execBits2bytes_running h₂)
    simp [hb]
  case bytes2bits =>
    obtain rfl := next_unique e₁ (execBytes2bits_running h₁)
    obtain rfl := next_unique e₂ (execBytes2bits_running h₂)
    simp [hb]
  case c3b =>
    obtain rfl := next_unique e₁ (execC3b_running h₁ b0 b1 b2)
    obtain rfl := next_unique e₂ (execC3b_running h₂ b0 b1 b2)
    simp [hc]
  case chb =>
    obtain rfl := next_unique e₁ (execChb_running h₁ b eta)
    obtain rfl := next_unique e₂ (execChb_running h₂ b eta)
    simp

end

section
/-! SUPPORT. Two blocks in the same state stay in the same state (R9). -/

namespace Sys2Proof.Machine

variable {s₁ s₂ t₁ t₂ u₁ u₂ : State}

/-! ## The updates keep two blocks the same -/

theorem SameBlock.raise (h : SameBlock s₁ s₂) (c : Cause) : SameBlock (raise c s₁) (raise c s₂) := by
  obtain ⟨hx, hrint, hcoef, -, hbits, hbytes⟩ := h
  exact ⟨hx, hrint, hcoef, rfl, hbits, hbytes⟩

theorem SameBlock.setBits (h : SameBlock s₁ s₂) (v : List Bit) : SameBlock (setBits v s₁) (setBits v s₂) := by
  obtain ⟨hx, hrint, hcoef, hfault, -, hbytes⟩ := h
  exact ⟨hx, hrint, hcoef, hfault, rfl, hbytes⟩

theorem SameBlock.setBytes (h : SameBlock s₁ s₂) (v : List Byte) : SameBlock (setBytes v s₁) (setBytes v s₂) := by
  obtain ⟨hx, hrint, hcoef, hfault, hbits, -⟩ := h
  exact ⟨hx, hrint, hcoef, hfault, hbits, rfl⟩

theorem SameBlock.setRint (h : SameBlock s₁ s₂) (v : Nat) : SameBlock (setRint v s₁) (setRint v s₂) := by
  obtain ⟨hx, -, hcoef, hfault, hbits, hbytes⟩ := h
  exact ⟨hx, rfl, hcoef, hfault, hbits, hbytes⟩

theorem SameBlock.setCoef (h : SameBlock s₁ s₂) (v : Option Word) : SameBlock (setCoef v s₁) (setCoef v s₂) := by
  obtain ⟨hx, hrint, -, hfault, hbits, hbytes⟩ := h
  exact ⟨hx, hrint, rfl, hfault, hbits, hbytes⟩

theorem SameBlock.setXLo (h : SameBlock s₁ s₂) (v : Word) : SameBlock (setXLo v s₁) (setXLo v s₂) := by
  obtain ⟨hx, hrint, hcoef, hfault, hbits, hbytes⟩ := h
  exact ⟨by simp [hx], hrint, hcoef, hfault, hbits, hbytes⟩

theorem SameBlock.setXHi (h : SameBlock s₁ s₂) (v : Word) : SameBlock (setXHi v s₁) (setXHi v s₂) := by
  obtain ⟨hx, hrint, hcoef, hfault, hbits, hbytes⟩ := h
  exact ⟨by simp [hx], hrint, hcoef, hfault, hbits, hbytes⟩

theorem SameBlock.ite {p : Prop} [Decidable p] (h : SameBlock s₁ s₂) (h' : SameBlock u₁ u₂) :
    SameBlock (if p then s₁ else u₁) (if p then s₂ else u₂) := by
  split
  · exact h
  · exact h'

theorem SameBlock.takeCycle (h : SameBlock s₁ s₂) : SameBlock (takeCycle s₁) (takeCycle s₂) := h

theorem SameBlock.atEdge (h : SameBlock s₁ s₂) : SameBlock (atEdge s₁) (atEdge s₂) := h

theorem sameBlock_resetBlock (s₁ s₂ : State) : SameBlock (resetBlock s₁) (resetBlock s₂) :=
  ⟨rfl, rfl, rfl, rfl, rfl, rfl⟩

/-- A read changes no element (R31). -/
theorem SameBlock.hostRead (h : SameBlock s₁ s₂) (slot : Slot) :
    SameBlock (hostRead slot s₁) (hostRead slot s₂) := by
  obtain ⟨_, _, e₁⟩ | ⟨_, _, e₁⟩ := hostRead_cases slot s₁ <;>
    obtain ⟨_, _, e₂⟩ | ⟨_, _, e₂⟩ := hostRead_cases slot s₂ <;> rw [e₁, e₂] <;> exact h

/-! ## Commands, writes and reads on the same block -/

section
variable (h : SameBlock s₁ s₂) (hc : s₁.cfg = s₂.cfg)
include h hc

theorem SameBlock.writeBlen (n : Word) : SameBlock (writeBlen n s₁) (writeBlen n s₂) := by
  simp only [Machine.writeBlen, hc]
  exact (h.raise _).ite (h.setBits _)

theorem SameBlock.writeNlen (n : Word) : SameBlock (writeNlen n s₁) (writeNlen n s₂) := by
  simp only [Machine.writeNlen, hc]
  exact (h.raise _).ite (h.setBytes _)

omit hc in
theorem SameBlock.writeBitElem (i : Nat) (v : Word) : SameBlock (writeBitElem i v s₁) (writeBitElem i v s₂) := by
  obtain ⟨-, -, -, -, hbits, -⟩ := id h
  simp only [Machine.writeBitElem, State.blen, hbits]
  exact (h.raise _).ite ((h.raise _).ite (h.setBits _))

omit hc in
theorem SameBlock.writeByteElem (i : Nat) (v : Word) : SameBlock (writeByteElem i v s₁) (writeByteElem i v s₂) := by
  obtain ⟨-, -, -, -, -, hbytes⟩ := id h
  simp only [Machine.writeByteElem, State.nlen, hbytes]
  exact (h.raise _).ite ((h.raise _).ite (h.setBytes _))

/-- A command's next state is a function of the parameters and the ten elements (R8, R9). -/
theorem SameBlock.exec {i : Instr} (e₁ : exec i s₁ = .next t₁) (e₂ : exec i s₂ = .next t₂) : SameBlock t₁ t₂ := by
  obtain ⟨hx, -, -, hfault, hbits, hbytes⟩ := id h
  cases hf : s₂.fault with
  | some c =>
    obtain rfl := next_unique e₁ (exec_faulted (hfault.trans hf) i)
    obtain rfl := next_unique e₂ (exec_faulted hf i)
    exact h
  | none =>
    have hf₁ : Running s₁ := hfault.trans hf
    cases i with
    | i2bits alpha =>
      obtain rfl := next_unique e₁ (execI2bits_running hf₁ alpha)
      obtain rfl := next_unique e₂ (execI2bits_running hf alpha)
      rw [hc, hx]
      exact (h.raise _).ite (h.setBits _)
    | bits2i alpha =>
      obtain rfl := next_unique e₁ (execBits2i_running hf₁ alpha)
      obtain rfl := next_unique e₂ (execBits2i_running hf alpha)
      rw [hbits]
      exact (h.raise _).ite ((h.raise _).ite (h.setRint _))
    | i2bytes alpha =>
      obtain rfl := next_unique e₁ (execI2bytes_running hf₁ alpha)
      obtain rfl := next_unique e₂ (execI2bytes_running hf alpha)
      rw [hc, hx]
      exact (h.raise _).ite (h.setBytes _)
    | bits2bytes =>
      obtain rfl := next_unique e₁ (execBits2bytes_running hf₁)
      obtain rfl := next_unique e₂ (execBits2bytes_running hf)
      rw [hbits]
      exact h.setBytes _
    | bytes2bits =>
      obtain rfl := next_unique e₁ (execBytes2bits_running hf₁)
      obtain rfl := next_unique e₂ (execBytes2bits_running hf)
      rw [hbytes]
      exact h.setBits _
    | c3b b0 b1 b2 =>
      obtain rfl := next_unique e₁ (execC3b_running hf₁ b0 b1 b2)
      obtain rfl := next_unique e₂ (execC3b_running hf b0 b1 b2)
      rw [hc]
      exact h.setCoef _
    | chb b eta =>
      obtain rfl := next_unique e₁ (execChb_running hf₁ b eta)
      obtain rfl := next_unique e₂ (execChb_running hf b eta)
      exact h.setCoef _

theorem SameBlock.performCommand {w : Word} (e₁ : performCommand w s₁ = .next t₁)
    (e₂ : performCommand w s₂ = .next t₂) : SameBlock t₁ t₂ := by
  cases hd : decode w with
  | ok i =>
    simp only [Machine.performCommand, hd] at e₁ e₂
    exact h.exec hc e₁ e₂
  | error r =>
    simp only [Machine.performCommand, hd] at e₁ e₂
    cases e₁
    cases e₂
    exact h.raise _

theorem SameBlock.writeSlot {slot : Slot} {v : Word} (e₁ : writeSlot slot v s₁ = .next t₁)
    (e₂ : writeSlot slot v s₂ = .next t₂) : SameBlock t₁ t₂ := by
  cases slot with
  | cmd => exact h.performCommand hc e₁ e₂
  | xLo => cases e₁; cases e₂; exact h.setXLo v
  | xHi => cases e₁; cases e₂; exact h.setXHi v
  | blen => cases e₁; cases e₂; exact h.writeBlen hc v
  | nlen => cases e₁; cases e₂; exact h.writeNlen hc v
  | byteElem i => cases e₁; cases e₂; exact h.writeByteElem i v
  | bitElem i => cases e₁; cases e₂; exact h.writeBitElem i v
  | status | rintLo | rintHi | coef | unmapped => cases e₁; cases e₂; exact h

theorem SameBlock.hostWrite {slot : Slot} {v : Word} (e₁ : hostWrite slot v s₁ = .next t₁)
    (e₂ : hostWrite slot v s₂ = .next t₂) : SameBlock t₁ t₂ := by
  obtain ⟨-, -, -, hfault, -, -⟩ := id h
  cases hf : s₂.fault with
  | some c =>
    obtain rfl := next_unique e₁ (hostWrite_faulted (hfault.trans hf) slot v)
    obtain rfl := next_unique e₂ (hostWrite_faulted hf slot v)
    exact h
  | none =>
    rw [hostWrite_running (hfault.trans hf)] at e₁
    rw [hostWrite_running hf] at e₂
    exact h.writeSlot hc e₁ e₂

omit hc in
theorem SameBlock.readSlot_eq (slot : Slot) : readSlot s₁ slot = readSlot s₂ slot := by
  obtain ⟨hx, hrint, hcoef, hfault, hbits, hbytes⟩ := h
  cases slot with
  | status => simp [readSlot, State.statusWord, State.valid, State.err, State.cause, hcoef, hfault]
  | _ => simp [readSlot, State.blen, State.nlen, hx, hrint, hcoef, hbits, hbytes]

omit hc in
/-- Only the read of `COEF` while `VALID = 0` may answer differently (R9, R14). -/
theorem SameBlock.hostRead_rdata (slot : Slot) :
    (Machine.hostRead slot s₁).rdata = (Machine.hostRead slot s₂).rdata ∨ (slot = .coef ∧ s₁.coef = none) := by
  obtain ⟨w₁, h₁, e₁⟩ | ⟨hslot, hcoef, -⟩ := hostRead_cases slot s₁
  · obtain ⟨w₂, h₂, e₂⟩ | ⟨rfl, hcoef, -⟩ := hostRead_cases slot s₂
    · left
      rw [h.readSlot_eq, h₂] at h₁
      cases h₁
      rw [e₁, e₂, driveRdata_rdata, driveRdata_rdata]
    · obtain ⟨-, -, hsame, -⟩ := h
      exact .inr ⟨rfl, hsame.trans hcoef⟩
  · exact .inr ⟨hslot, hcoef⟩

end

theorem hostWrite_rdata {s t : State} {slot : Slot} {v : Word} (e : hostWrite slot v s = .next t) :
    t.rdata = s.rdata := by
  obtain ⟨u, e', -, -, -, hrdata, -⟩ := hostWrite_next slot v s
  exact next_unique e e' ▸ hrdata

end Sys2Proof.Machine

open Sys2Proof.Machine

/-- Settles O9: by the kind of the cycle, which the pins fix for both blocks. -/
theorem noHiddenState : Obligations.NoHiddenState := by
  intro s₁ s₂ t₁ t₂ hc h hn e₁ e₂
  obtain ⟨-, c₁⟩ := step_cases e₁
  obtain ⟨-, c₂⟩ := step_cases e₂
  rw [← hn] at c₂
  obtain ⟨hr, rfl⟩ | ⟨hr, hs, rfl⟩ | ⟨hr, hs, hwe, -, w₁⟩ | ⟨hr, hs, hwe, -, rfl⟩ := c₁
  case inl =>
    obtain rfl : t₂ = resetBlock (takeCycle s₂) := by simpa [hr] using c₂
    exact ⟨sameBlock_resetBlock _ _, .inl rfl⟩
  case inr.inl =>
    obtain rfl : t₂ = atEdge s₂ := by simpa [hr, hs] using c₂
    exact ⟨h.atEdge, .inl rfl⟩
  case inr.inr.inl =>
    obtain ⟨-, w₂⟩ : s₂.ready = true ∧ hostWrite _ _ (atEdge s₂) = .next t₂ := by simpa [hr, hs, hwe] using c₂
    exact ⟨h.atEdge.hostWrite hc w₁ w₂, .inl ((hostWrite_rdata w₁).trans (hostWrite_rdata w₂).symm)⟩
  case inr.inr.inr =>
    obtain ⟨-, rfl⟩ : s₂.ready = true ∧ t₂ = hostRead _ (takeCycle s₂) := by simpa [hr, hs, hwe] using c₂
    exact ⟨h.takeCycle.hostRead _, h.takeCycle.hostRead_rdata _⟩

end

section
/-! SUPPORT. Which cycle writes which element of the block (R10, R31, R34). -/

namespace Sys2Proof.Machine

variable {s t : State} {i : Instr} {slot : Slot} {v : Word}

/-! ## The commands by their destination -/

theorem destination_bitsSlot (h : destination i = bitsSlot) : (∃ α, i = .i2bits α) ∨ i = .bytes2bits := by
  have hb : destination i .blen = true := congrFun h .blen
  cases i with
  | i2bits α => exact .inl ⟨α, rfl⟩
  | bytes2bits => exact .inr rfl
  | _ => cases hb

theorem destination_bytesSlot (h : destination i = bytesSlot) : (∃ α, i = .i2bytes α) ∨ i = .bits2bytes := by
  have hb : destination i .nlen = true := congrFun h .nlen
  cases i with
  | i2bytes α => exact .inl ⟨α, rfl⟩
  | bits2bytes => exact .inr rfl
  | _ => cases hb

theorem destination_rintSlot (h : destination i = rintSlot) : ∃ α, i = .bits2i α := by
  have hb : destination i .rintLo = true := congrFun h .rintLo
  cases i with
  | bits2i α => exact ⟨α, rfl⟩
  | _ => cases hb

theorem destination_sampleSlot (h : destination i = sampleSlot) :
    (∃ b0 b1 b2, i = .c3b b0 b1 b2) ∨ ∃ b eta, i = .chb b eta := by
  have hb : destination i .coef = true := congrFun h .coef
  cases i with
  | c3b b0 b1 b2 => exact .inl ⟨b0, b1, b2, rfl⟩
  | chb b eta => exact .inr ⟨b, eta, rfl⟩
  | _ => cases hb

/-- A command changes no element but its destination, `ERR` and `CAUSE` (R8, R10). -/
theorem exec_writes (e : exec i s = .next t) :
    t.x = s.x ∧ (t.rint ≠ s.rint → ∃ α, i = .bits2i α) ∧
      (t.coef ≠ s.coef → (∃ b0 b1 b2, i = .c3b b0 b1 b2) ∨ ∃ b eta, i = .chb b eta) ∧
      (t.bits ≠ s.bits → (∃ α, i = .i2bits α) ∨ i = .bytes2bits) ∧
      (t.bytes ≠ s.bytes → (∃ α, i = .i2bytes α) ∨ i = .bits2bytes) := by
  obtain rfl | ⟨-, c, rfl⟩ | ⟨hd, l, rfl⟩ | ⟨hd, l, rfl⟩ | ⟨hd, n, rfl⟩ | ⟨hd, o, rfl⟩ := exec_cases e
  · exact ⟨rfl, absurd rfl, absurd rfl, absurd rfl, absurd rfl⟩
  · exact ⟨rfl, absurd rfl, absurd rfl, absurd rfl, absurd rfl⟩
  · exact ⟨rfl, absurd rfl, absurd rfl, fun _ => destination_bitsSlot hd, absurd rfl⟩
  · exact ⟨rfl, absurd rfl, absurd rfl, absurd rfl, fun _ => destination_bytesSlot hd⟩
  · exact ⟨rfl, fun _ => destination_rintSlot hd, absurd rfl, absurd rfl, absurd rfl⟩
  · exact ⟨rfl, absurd rfl, fun _ => destination_sampleSlot hd, absurd rfl, absurd rfl⟩

/-! ## A host write by its slot -/

/-- All a host write in the running state can have done: nothing, a fault, the write of one element through its own
slots, or a command (R34). -/
theorem writeSlot_cases (e : writeSlot slot v s = .next t) :
    t = s ∨ (∃ c, t = raise c s) ∨ ((slot = .xLo ∨ slot = .xHi) ∧ ∃ x, t = { s with x := x }) ∨
      ((slot = .blen ∨ ∃ i, slot = .bitElem i) ∧ ∃ l, t = setBits l s) ∨
      ((slot = .nlen ∨ ∃ i, slot = .byteElem i) ∧ ∃ l, t = setBytes l s) ∨
      (slot = .cmd ∧ ∃ i, decode v = .ok i ∧ exec i s = .next t) := by
  cases slot with
  | cmd =>
    obtain ⟨i, hi, e'⟩ | ⟨r, _, e'⟩ := performCommand_cases v s
    · exact .inr (.inr (.inr (.inr (.inr ⟨rfl, i, hi, e'.symm.trans e⟩))))
    · exact .inr (.inl ⟨_, next_unique e e'⟩)
  | xLo => cases e; exact .inr (.inr (.inl ⟨.inl rfl, _, rfl⟩))
  | xHi => cases e; exact .inr (.inr (.inl ⟨.inr rfl, _, rfl⟩))
  | blen =>
    cases e
    obtain ⟨_, e'⟩ | ⟨_, e'⟩ := writeBlen_cases v s
    · exact .inr (.inl ⟨_, e'⟩)
    · exact .inr (.inr (.inr (.inl ⟨.inl rfl, _, e'⟩)))
  | nlen =>
    cases e
    obtain ⟨_, e'⟩ | ⟨_, e'⟩ := writeNlen_cases v s
    · exact .inr (.inl ⟨_, e'⟩)
    · exact .inr (.inr (.inr (.inr (.inl ⟨.inl rfl, _, e'⟩))))
  | bitElem j =>
    cases e
    obtain ⟨_, e'⟩ | ⟨_, _, e'⟩ | ⟨_, _, e'⟩ := writeBitElem_cases j v s
    · exact .inr (.inl ⟨_, e'⟩)
    · exact .inr (.inl ⟨_, e'⟩)
    · exact .inr (.inr (.inr (.inl ⟨.inr ⟨j, rfl⟩, _, e'⟩)))
  | byteElem j =>
    cases e
    obtain ⟨_, e'⟩ | ⟨_, _, e'⟩ | ⟨_, _, e'⟩ := writeByteElem_cases j v s
    · exact .inr (.inl ⟨_, e'⟩)
    · exact .inr (.inl ⟨_, e'⟩)
    · exact .inr (.inr (.inr (.inr (.inl ⟨.inr ⟨j, rfl⟩, _, e'⟩))))
  | status | rintLo | rintHi | coef | unmapped => cases e; exact .inl rfl

/-! ## The step -/

/-- A read changes no element (R31). -/
theorem sameBlock_hostRead (slot : Slot) (s : State) : SameBlock s (hostRead slot s) := by
  obtain ⟨w, _, e⟩ | ⟨_, _, e⟩ := hostRead_cases slot s <;> rw [e] <;> exact ⟨rfl, rfl, rfl, rfl, rfl, rfl⟩

/-- Only a host write in the running state changes an element, reset aside (R31, R127). -/
theorem step_sameBlock_or_write (hr : s.nextCycle.rst = false) (h : step s = .next t) :
    SameBlock s t ∨ (s.nextCycle.sel = true ∧ s.nextCycle.we = true ∧ s.fault = none ∧
      writeSlot (slotOf s.nextCycle.addr) s.nextCycle.wdata (atEdge s) = .next t) := by
  obtain ⟨-, ⟨hr', -⟩ | ⟨-, -, rfl⟩ | ⟨-, hs, hwe, -, e⟩ | ⟨-, -, -, -, rfl⟩⟩ := step_cases h
  · cases hr.symm.trans hr'
  · exact .inl ⟨rfl, rfl, rfl, rfl, rfl, rfl⟩
  · cases hf : s.fault with
    | some c =>
      obtain rfl := next_unique e (hostWrite_faulted (s := atEdge s) hf ..)
      exact .inl ⟨rfl, rfl, rfl, rfl, rfl, rfl⟩
    | none => exact .inr ⟨hs, hwe, rfl, hostWrite_running (s := atEdge s) hf .. ▸ e⟩
  · exact .inl (sameBlock_hostRead _ (takeCycle s))

end Sys2Proof.Machine

open Sys2Proof Sys2Proof.Machine

/-- Settles O10: a cycle that changes an element is a running host write (`step_sameBlock_or_write`), which writes one
element only (`writeSlot_cases`), or performs a command, which writes its destination only (`exec_writes`). -/
theorem whoWritesEachElement : Obligations.WhoWritesEachElement := by
  intro s t hr h write slot commands
  obtain ⟨hx, hrint, hcoef, hfault, hbits, hbytes⟩ | ⟨hs, hwe, hf, e⟩ := step_sameBlock_or_write hr h
  · exact ⟨absurd hx.symm, absurd hrint.symm, absurd hcoef.symm, absurd hbits.symm, absurd hbytes.symm,
      absurd hfault.symm⟩
  have hw : write := ⟨hs, hwe, hf⟩
  obtain rfl | ⟨c, rfl⟩ | ⟨hslot, x, rfl⟩ | ⟨hslot, l, rfl⟩ | ⟨hslot, l, rfl⟩ | ⟨hslot, i, hi, e⟩ := writeSlot_cases e
  case inr.inr.inr.inr.inr =>
    have hcmd : commands i := ⟨hw, hslot, hi⟩
    obtain ⟨hx, hrint, hcoef, hbits, hbytes⟩ := exec_writes e
    refine ⟨absurd hx, fun hne => ?rint, fun hne => ?coef, fun hne => .inr ?bits, fun hne => .inr ?bytes, fun _ => hw⟩
    case rint =>
      obtain ⟨α, rfl⟩ := hrint hne
      exact ⟨α, hcmd⟩
    case coef =>
      obtain ⟨b0, b1, b2, rfl⟩ | ⟨b, eta, rfl⟩ := hcoef hne
      · exact .inl ⟨b0, b1, b2, hcmd⟩
      · exact .inr ⟨b, eta, hcmd⟩
    case bits =>
      obtain ⟨α, rfl⟩ | rfl := hbits hne
      · exact .inl ⟨α, hcmd⟩
      · exact .inr hcmd
    case bytes =>
      obtain ⟨α, rfl⟩ | rfl := hbytes hne
      · exact .inl ⟨α, hcmd⟩
      · exact .inr hcmd
  · exact ⟨absurd rfl, absurd rfl, absurd rfl, absurd rfl, absurd rfl, absurd rfl⟩
  · exact ⟨absurd rfl, absurd rfl, absurd rfl, absurd rfl, absurd rfl, fun _ => hw⟩
  · exact ⟨fun _ => ⟨hw, hslot⟩, absurd rfl, absurd rfl, absurd rfl, absurd rfl, absurd rfl⟩
  · exact ⟨absurd rfl, absurd rfl, absurd rfl, fun _ => .inl ⟨hw, hslot⟩, absurd rfl, absurd rfl⟩
  · exact ⟨absurd rfl, absurd rfl, absurd rfl, absurd rfl, fun _ => .inl ⟨hw, hslot⟩, absurd rfl⟩

end

section
/-! SUPPORT. The samples as 32-bit codes (R100 to R102, R110 to R114). -/

namespace Sys2Proof.Machine

theorem signed32_zext32 {z : Nat} (h : z < 2 ^ 31) : signed32 (zext32 z) = z := by
  have hz : (zext32 z).toNat = z := by rw [zext32, BitVec.toNat_ofNat]; omega
  rw [signed32, hz, if_pos h]

theorem signed32_sext32 {c : Int} (hlo : -2 ^ 31 ≤ c) (hhi : c < 2 ^ 31) : signed32 (sext32 c) = c := by
  have hc : ((sext32 c).toNat : Int) = c % 2 ^ 32 := by
    rw [sext32, BitVec.toNat_ofInt]; omega
  unfold signed32
  split <;> omega

/-- A candidate has 23 bits (R100). -/
theorem candidate_lt (b0 b1 b2 : Byte) : candidate b0 b1 b2 < 2 ^ 23 := by
  have h0 := b0.isLt
  have h1 := b1.isLt
  have h2 := b2.isLt
  unfold candidate
  split <;> omega

theorem coeffFromThreeBytes_eq_some {q : Nat} {b0 b1 b2 : Byte} {z : Nat} :
    coeffFromThreeBytes q b0 b1 b2 = some z ↔ candidate b0 b1 b2 < q ∧ candidate b0 b1 b2 = z := by
  simp [coeffFromThreeBytes]

/-- An accepted half-byte gives a coefficient in `[-eta, eta]`, for `eta` 2 or 4 (R110, R114). -/
theorem coeffFromHalfByte_bounds {b eta : Nat} {c : Int} (h : coeffFromHalfByte b eta = some c) :
    (eta = 2 ∨ eta = 4) ∧ -(eta : Int) ≤ c ∧ c ≤ eta := by
  unfold coeffFromHalfByte at h
  split at h
  · cases h; omega
  · split at h
    · cases h; omega
    · cases h

end Sys2Proof.Machine
end

section
/-! SUPPORT. Every operation keeps the invariant of R23. -/

namespace Sys2Proof.Machine

variable {s t : State} {slot : Slot} {v : Word}

/-! ## The coefficient -/

theorem coefInRange_setCoef {o : Option Word} :
    CoefInRange (setCoef o s) ↔ ∀ c, o = some c → -4 ≤ signed32 c ∧ signed32 c ≤ (s.cfg.q : Int) - 1 := by
  cases o <;> simp [CoefInRange]

/-- `C3B` leaves a coefficient of `0 .. Q-1` or none (R101, R102). -/
theorem coefInRange_c3b (b0 b1 b2 : Byte) :
    CoefInRange (setCoef ((coeffFromThreeBytes s.cfg.q b0 b1 b2).map zext32) s) := by
  rw [coefInRange_setCoef]
  intro c hc
  obtain ⟨z, hz, rfl⟩ := Option.map_eq_some_iff.mp hc
  obtain ⟨hq, rfl⟩ := coeffFromThreeBytes_eq_some.mp hz
  have hlt := candidate_lt b0 b1 b2
  rw [signed32_zext32 (by omega)]
  omega

/-- `CHB` leaves a coefficient of `-4 .. 4` or none (R111, R114); 4 is below `Q` from `Q = 5` on (log 8). -/
theorem coefInRange_chb (hq : 5 ≤ s.cfg.q) (b eta : Byte) :
    CoefInRange (setCoef ((coeffFromHalfByte b.toNat eta.toNat).map sext32) s) := by
  rw [coefInRange_setCoef]
  intro c hc
  obtain ⟨z, hz, rfl⟩ := Option.map_eq_some_iff.mp hc
  obtain ⟨heta, hlo, hhi⟩ := coeffFromHalfByte_bounds hz
  rw [signed32_sext32 (by omega) (by omega)]
  omega

/-! ## The operations -/

theorem blockInv_reset : BlockInv State.reset := ⟨wf_reset, trivial⟩

theorem blockInv_resetBlock : BlockInv (resetBlock s) := ⟨wf_resetBlock, trivial⟩

/-- The invariant reads only `VALID`, `COEF` and the buffers. -/
theorem BlockInv.of_sameBlock (h : BlockInv s) (hb : SameBlock s t) (hc : t.cfg = s.cfg) : BlockInv t := by
  obtain ⟨-, -, hcoef, -, hbits, hbytes⟩ := hb
  simpa only [BlockInv, Memory.wf, CoefInRange, hcoef, hbits, hbytes, hc] using h

theorem BlockInv.raise (h : BlockInv s) (c : Cause) : BlockInv (raise c s) := h

theorem BlockInv.setBits (h : BlockInv s) {l : List Bit} (hl : l.length ≤ s.cfg.lmax) : BlockInv (setBits l s) := by
  obtain ⟨hwf, hcoef⟩ := h
  exact ⟨wf_setBits hwf hl, hcoef⟩

theorem BlockInv.setBytes (h : BlockInv s) {l : List Byte} (hl : l.length ≤ s.cfg.nmax) :
    BlockInv (setBytes l s) := by
  obtain ⟨hwf, hcoef⟩ := h
  exact ⟨wf_setBytes hwf hl, hcoef⟩

/-- A command keeps the invariant: the bounds it checks are the capacities, and a packer's result fits where its
operand does, as `LMAX = 8 * NMAX` (R71 to R111). -/
theorem BlockInv.exec (h : BlockInv s) (hq : 5 ≤ s.cfg.q) {i : Instr} (e : exec i s = .next t) : BlockInv t := by
  obtain ⟨hwf, hcoef⟩ := id h
  obtain ⟨hbits, hbytes⟩ := Memory.wf_iff.mp hwf
  cases hf : s.fault with
  | some c => exact next_unique (exec_faulted hf i) e ▸ h
  | none =>
    cases i with
    | i2bits α =>
      obtain rfl := next_unique e (execI2bits_running hf α)
      split
      · exact h.raise _
      · exact h.setBits (by rw [length_integerToBits]; omega)
    | bits2i α =>
      obtain rfl := next_unique e (execBits2i_running hf α)
      split
      · exact h.raise _
      · split
        · exact h.raise _
        · exact h
    | i2bytes α =>
      obtain rfl := next_unique e (execI2bytes_running hf α)
      split
      · exact h.raise _
      · exact h.setBytes (by rw [length_integerToBytes]; omega)
    | bits2bytes =>
      obtain rfl := next_unique e (execBits2bytes_running hf)
      rw [Config.lmax] at hbits
      exact h.setBytes (by rw [length_bitsToBytes]; omega)
    | bytes2bits =>
      obtain rfl := next_unique e (execBytes2bits_running hf)
      exact h.setBits (by rw [length_bytesToBits, Config.lmax]; omega)
    | c3b b0 b1 b2 =>
      obtain rfl := next_unique e (execC3b_running hf b0 b1 b2)
      exact ⟨hwf, coefInRange_c3b b0 b1 b2⟩
    | chb b eta =>
      obtain rfl := next_unique e (execChb_running hf b eta)
      exact ⟨hwf, coefInRange_chb hq b eta⟩

/-- Only a command writes the coefficient (R10). -/
theorem CoefInRange.writeSlot (h : CoefInRange s) (hslot : slot ≠ .cmd) (e : writeSlot slot v s = .next t) :
    CoefInRange t := by
  obtain rfl | ⟨c, rfl⟩ | ⟨-, x, rfl⟩ | ⟨-, l, rfl⟩ | ⟨-, l, rfl⟩ | ⟨hcmd, -⟩ := writeSlot_cases e
  case inr.inr.inr.inr.inr => exact absurd hcmd hslot
  all_goals exact h

theorem BlockInv.writeSlot (h : BlockInv s) (hq : 5 ≤ s.cfg.q) (e : writeSlot slot v s = .next t) : BlockInv t := by
  obtain ⟨hwf, hcoef⟩ := id h
  cases slot with
  | cmd =>
    obtain ⟨i, _, e'⟩ | ⟨r, _, e'⟩ := performCommand_cases v s
    · exact h.exec hq (e'.symm.trans e)
    · exact next_unique e' e ▸ h.raise _
  | blen => cases e; exact ⟨wf_writeBlen hwf, hcoef.writeSlot (slot := .blen) nofun rfl⟩
  | nlen => cases e; exact ⟨wf_writeNlen hwf, hcoef.writeSlot (slot := .nlen) nofun rfl⟩
  | bitElem i => cases e; exact ⟨wf_writeBitElem hwf, hcoef.writeSlot (slot := .bitElem i) nofun rfl⟩
  | byteElem i => cases e; exact ⟨wf_writeByteElem hwf, hcoef.writeSlot (slot := .byteElem i) nofun rfl⟩
  | xLo | xHi | status | rintLo | rintHi | coef | unmapped => cases e; exact h

/-! ## The step -/

@[simp] theorem hostRead_cfg (slot : Slot) (s : State) : (hostRead slot s).cfg = s.cfg := by
  obtain ⟨w, _, e⟩ | ⟨_, _, e⟩ := hostRead_cases slot s <;> rw [e] <;> rfl

/-- No cycle changes the parameters (R24; log 16). -/
theorem step_cfg (h : step s = .next t) : t.cfg = s.cfg := by
  obtain ⟨-, ⟨-, rfl⟩ | ⟨-, -, rfl⟩ | ⟨-, -, -, -, e⟩ | ⟨-, -, -, -, rfl⟩⟩ := step_cases h
  · rfl
  · rfl
  · obtain ⟨u, e', -, hcfg, -⟩ := hostWrite_next (slotOf s.nextCycle.addr) s.nextCycle.wdata (atEdge s)
    exact next_unique e' e ▸ hcfg
  · exact hostRead_cfg ..

theorem BlockInv.step (h : BlockInv s) (hq : 5 ≤ s.cfg.q) (e : step s = .next t) : BlockInv t := by
  cases hr : s.nextCycle.rst with
  | true =>
    obtain ⟨hw, -⟩ := step_cases e
    exact next_unique (step_reset hw hr) e ▸ blockInv_resetBlock
  | false =>
    obtain hb | ⟨-, -, -, e'⟩ := step_sameBlock_or_write hr e
    · exact h.of_sameBlock hb (step_cfg e)
    · exact BlockInv.writeSlot (s := atEdge s) h hq e'

end Sys2Proof.Machine

open Sys2Proof.Machine

/-- Settles O8: reset sets the invariant, a cycle that is no running host write changes nothing it reads, and a host
write keeps it. -/
theorem stepKeepsInv : Obligations.StepKeepsInv := fun _ _ hq h e => ⟨h.step hq e, step_cfg e⟩

/-- Settles O7. -/
theorem invHoldsAtReset : Obligations.InvHoldsAtReset := blockInv_reset

end

section
/-! SUPPORT. The reset table, `STATUS`, the free word, and the halves of `X` (R11, R14, R18, R27). -/

namespace Sys2Proof.Machine

variable {s : State}

/-! ## `STATUS` (R13, R15, R18) -/

theorem valid_le_one (s : State) : s.valid ≤ 1 := by unfold State.valid; split <;> omega

theorem err_le_one (s : State) : s.err ≤ 1 := by unfold State.err; split <;> omega

theorem cause_le_six (s : State) : s.cause ≤ 6 := by
  unfold State.cause
  split
  next c _ => cases c <;> decide
  · omega

/-- The three fields fill the low byte, so nothing is lost in the word. -/
theorem statusWord_toNat (s : State) : s.statusWord.toNat = s.valid + 2 * s.err + 16 * s.cause := by
  have hv := valid_le_one s
  have he := err_le_one s
  have hc := cause_le_six s
  rw [State.statusWord, BitVec.toNat_ofNat]
  omega

theorem statusWord_field (s : State) (lo n : Nat) :
    (s.statusWord.extractLsb' lo n).toNat = (s.valid + 2 * s.err + 16 * s.cause) / 2 ^ lo % 2 ^ n := by
  rw [BitVec.extractLsb'_toNat, Nat.shiftRight_eq_div_pow, statusWord_toNat]

/-! ## The port -/

/-- A read of `COEF` without a value draws a free word (R14). -/
theorem hostRead_coef_none (h : s.coef = none) : hostRead .coef s = driveFreeWord s := by
  simp [hostRead, readSlot, h]

/-- A write cycle of a running block is `MemWrite` at the edge (R31, R34). -/
theorem step_write_running (hu : InUse s) (hf : Running s) (hr : s.nextCycle.rst = false)
    (hs : s.nextCycle.sel = true) (hwe : s.nextCycle.we = true) :
    step s = writeSlot (slotOf s.nextCycle.addr) s.nextCycle.wdata (atEdge s) := by
  rw [step_write hu hr hs hwe, hostWrite_running (s := atEdge s) hf]

end Sys2Proof.Machine

open Sys2Proof.Machine

/-- Settles O15: the slot by its offset, and the value by `setXLo_toNat` and `setXHi_toNat`. -/
theorem writesToTheHalvesOfX : Obligations.WritesToTheHalvesOfX := by
  intro s hu hf hr hs hwe
  have e := step_write_running hu hf hr hs hwe
  constructor
  · intro ha
    rw [slotOf_eq ha] at e
    exact ⟨_, e, rfl, setXLo_toNat ..⟩
  · intro ha
    rw [slotOf_eq ha] at e
    exact ⟨_, e, rfl, setXHi_toNat ..⟩

/-- Settles O1: the table by computation; a reset edge differs from `State.reset` in the model's own fields only. -/
theorem resetStateHoldsTheTable : Obligations.ResetStateHoldsTheTable :=
  ⟨rfl, rfl, rfl, rfl, rfl, rfl, rfl, rfl, rfl, rfl, rfl, fun _ => ⟨rfl, rfl, rfl, rfl, rfl, rfl⟩⟩

/-- Settles O12: offset `0x0018` is `COEF`, whose read draws the free word. -/
theorem coefWithoutValueReadsAFreeWord : Obligations.CoefWithoutValueReadsAFreeWord := by
  intro s hu hcoef hr hs hwe ha
  have hslot : slotOf s.nextCycle.addr = .coef := slotOf_eq ha
  rw [step_read hu hr hs hwe, hslot, hostRead_coef_none (s := takeCycle s) hcoef]
  rfl

/-- Settles O13: each field is a digit of `VALID + 2*ERR + 16*CAUSE`, within its bounds. -/
theorem statusFields : Obligations.StatusFields := by
  intro s
  have hv := valid_le_one s
  have he := err_le_one s
  have hc := cause_le_six s
  refine ⟨?valid, ?err, BitVec.eq_of_toNat_eq ?_, ?cause, BitVec.eq_of_toNat_eq ?_⟩ <;> rw [statusWord_field]
  case valid => change _ = s.valid; omega
  case err => change _ = s.err; omega
  case cause => omega
  all_goals simp only [BitVec.ofNat_eq_ofNat, BitVec.toNat_ofNat]; omega

end

section
/-! SUPPORT. The word a host reads at every slot of the map (R31, R33, R35, R36). -/

namespace Sys2Proof.Machine

variable {s : State} {slot : Slot} {w : Word}

/-! ## The words of the map as numbers -/

theorem lowHalf_toNat (x : DWord) : (x.extractLsb' 0 32).toNat = x.toNat % 2 ^ 32 := by
  rw [BitVec.extractLsb'_toNat, Nat.shiftRight_zero]

theorem highHalf_toNat (x : DWord) : (x.extractLsb' 32 32).toNat = x.toNat / 2 ^ 32 := by
  have hx := x.isLt
  rw [BitVec.extractLsb'_toNat, Nat.shiftRight_eq_div_pow]
  omega

/-- The parameters bound the capacities (R6), so a length fits its word (R33). -/
theorem wf_length_lt (hc : s.cfg.wf = true) (hw : Memory.wf s = true) :
    s.bits.length < 2 ^ 32 ∧ s.bytes.length < 2 ^ 32 := by
  obtain ⟨hbits, hbytes⟩ := Memory.wf_iff.mp hw
  obtain ⟨-, -, -, hnmax⟩ : 1 ≤ s.cfg.q ∧ s.cfg.q ≤ 8388608 ∧ 8 ≤ s.cfg.nmax ∧ s.cfg.nmax ≤ 1024 := by
    simpa [Config.wf] using hc
  rw [Config.lmax] at hbits
  omega

/-- A value that fits its field is kept. -/
theorem toNat_ofNat_of_lt {k v : Nat} (h : v < 2 ^ k) : (BitVec.ofNat k v).toNat = v := by
  rw [BitVec.toNat_ofNat, Nat.mod_eq_of_lt h]

/-! ## The elements of the windows (R35, R36) -/

theorem readSlot_bitElem_of_length_le {i : Nat} (h : s.bits.length ≤ i) : readSlot s (.bitElem i) = some 0 := by
  rw [readSlot, List.getD_eq_default _ _ h]
  rfl

theorem readSlot_byteElem_of_length_le {i : Nat} (h : s.bytes.length ≤ i) : readSlot s (.byteElem i) = some 0 := by
  rw [readSlot, List.getD_eq_default _ _ h]
  rfl

theorem readSlot_bitElem_of_lt {i : Nat} (h : i < s.bits.length) :
    readSlot s (.bitElem i) = some (BitVec.ofNat 32 s.bits[i].toNat) := by
  rw [readSlot, List.getD_eq_getElem _ _ h]

theorem readSlot_byteElem_of_lt {i : Nat} (h : i < s.bytes.length) :
    readSlot s (.byteElem i) = some (BitVec.ofNat 32 s.bytes[i].toNat) := by
  rw [readSlot, List.getD_eq_getElem _ _ h]

/-! ## The read cycle -/

theorem hostRead_rdata (h : readSlot s slot = some w) : (hostRead slot s).rdata = w := by
  simp [hostRead, h]

/-- A read drives `rdata`, may draw a free word, and changes nothing else (R33). -/
theorem hostRead_frame (slot : Slot) (s : State) :
    hostRead slot s = { s with rdata := (hostRead slot s).rdata, draws := (hostRead slot s).draws } := by
  obtain ⟨w, _, e⟩ | ⟨_, _, e⟩ := hostRead_cases slot s <;> rw [e] <;> rfl

/-- Taking the cycle off the host's list changes no word of the map. -/
@[simp] theorem readSlot_takeCycle (slot : Slot) (s : State) : readSlot (takeCycle s) slot = readSlot s slot := by
  cases slot <;> rfl

/-- The read cycle of the offset `off` drives the map's word at `off` (R30, R33). -/
theorem hostRead_rdata_of_offset {addr : BitVec 14} {off : Nat} (ho : 4 * addr.toNat = off)
    (h : readSlot s (slotAt off) = some w) : (hostRead (slotOf addr) (takeCycle s)).rdata = w := by
  rw [slotOf_eq ho]
  exact hostRead_rdata (by simpa using h)

end Sys2Proof.Machine

open Sys2Proof Sys2Proof.Machine

/-- Settles O4: one law of the step for each setting of the pins; a read drives the map's word and a write leaves the
0 on `rdata`. -/
theorem cycleFollowsThePins : Obligations.CycleFollowsThePins := by
  intro s hu hr
  obtain ⟨hw, -⟩ := id hu
  refine ⟨step_idle hw hr, fun hs hwe => ?read, fun hs hwe => ?write⟩
  case read =>
    have e := step_read hu hr hs hwe
    refine ⟨e, fun t ht => ?_⟩
    obtain rfl := next_unique ht e
    exact ⟨sameBlock_hostRead _ (takeCycle s), fun w h => hostRead_rdata (by simpa using h)⟩
  case write =>
    have e := step_write hu hr hs hwe
    exact ⟨e, fun t ht => hostWrite_rdata (e.symm.trans ht)⟩

/-- Settles O11: along the map, the slot of each offset and the number its word stands for. -/
theorem readReturnsTheMap : Obligations.ReadReturnsTheMap := by
  intro s hu hwf hr hs hwe
  obtain ⟨hc, -⟩ := id hu
  obtain ⟨hbits, hbytes⟩ := wf_length_lt hc hwf
  refine ⟨_, step_read hu hr hs hwe, hostRead_frame _ (takeCycle s), ?_⟩
  have hword {off w} := hostRead_rdata_of_offset (s := s) (addr := s.nextCycle.addr) (off := off) (w := w)
  generalize (hostRead (slotOf s.nextCycle.addr) (takeCycle s)).rdata = rdata at hword ⊢
  generalize hoff : 4 * s.nextCycle.addr.toNat = off at hword ⊢
  refine ite_prop_iff_and.mpr ⟨fun h => hword h rfl, fun _ => ?_⟩
  refine ite_prop_iff_and.mpr ⟨fun h => by rw [hword h rfl, statusWord_toNat], fun _ => ?_⟩
  refine ite_prop_iff_and.mpr ⟨fun h => by rw [hword h rfl, lowHalf_toNat], fun _ => ?_⟩
  refine ite_prop_iff_and.mpr ⟨fun h => by rw [hword h rfl, highHalf_toNat], fun _ => ?_⟩
  refine ite_prop_iff_and.mpr ⟨fun h => by rw [hword h rfl, lowHalf_toNat], fun _ => ?_⟩
  refine ite_prop_iff_and.mpr ⟨fun h => by rw [hword h rfl, highHalf_toNat], fun _ => ?_⟩
  refine ite_prop_iff_and.mpr ⟨fun h c hcoef => hword h hcoef, fun _ => ?_⟩
  refine ite_prop_iff_and.mpr ⟨fun h => (hword h rfl).symm ▸ toNat_ofNat_of_lt hbits, fun _ => ?_⟩
  refine ite_prop_iff_and.mpr ⟨fun h => (hword h rfl).symm ▸ toNat_ofNat_of_lt hbytes, fun _ => ?_⟩
  split
  next h =>
    obtain ⟨hlo, hhi⟩ := h
    have hslot : slotAt off = _ := slotAt_byteWindow hlo hhi
    split
    · rw [hword rfl (hslot ▸ readSlot_byteElem_of_lt ‹_›), toNat_ofNat_of_lt (by omega)]
    · exact hword rfl (hslot ▸ readSlot_byteElem_of_length_le (by omega))
  split
  next h =>
    obtain ⟨hlo, hhi⟩ := h
    have hslot : slotAt off = _ := slotAt_bitWindow hlo hhi
    split
    · rw [hword rfl (hslot ▸ readSlot_bitElem_of_lt ‹_›), toNat_ofNat_of_lt (by omega)]
    · exact hword rfl (hslot ▸ readSlot_bitElem_of_length_le (by omega))
  · have hslot : slotAt off = .unmapped := slotAt_unmapped (by omega)
    exact hword rfl (by rw [hslot]; rfl)

end

section
/-! SUPPORT. What a host write to a length, an element, a read-only or an unmapped offset does (R35 to R39, R43). -/

namespace Sys2Proof.Machine

variable {s : State} {addr : BitVec 14} {i : Nat} {v n : Word}

/-! ## The windows by address (R32) -/

theorem portAddr_of_offset {off : Nat} (h : 4 * addr.toNat = off) : portAddr off = addr := by
  subst h
  simp [portAddr]

theorem slotOf_bitWindow (hi : i < 8192) (h : 4 * addr.toNat = 0x8000 + 4 * i) : slotOf addr = .bitElem i :=
  portAddr_of_offset h ▸ slotOf_bitElem hi

theorem slotOf_byteWindow (hi : i < 1024) (h : 4 * addr.toNat = 0x1000 + 4 * i) : slotOf addr = .byteElem i :=
  portAddr_of_offset h ▸ slotOf_byteElem hi

/-! ## An element (R37, R38) -/

theorem writeBitElem_indexRange (h : s.bits.length ≤ i) : writeBitElem i v s = raise .indexRange s :=
  if_pos h

theorem writeBitElem_elemRange (h : i < s.bits.length) (hv : 1 < v.toNat) :
    writeBitElem i v s = raise .elemRange s :=
  (if_neg (by rw [State.blen]; omega)).trans (if_pos hv)

theorem writeBitElem_stores (h : i < s.bits.length) (hv : v.toNat ≤ 1) :
    writeBitElem i v s = setBits (s.bits.set i (BitVec.ofNat 1 v.toNat)) s :=
  (if_neg (by rw [State.blen]; omega)).trans (if_neg (by omega))

theorem writeByteElem_indexRange (h : s.bytes.length ≤ i) : writeByteElem i v s = raise .indexRange s :=
  if_pos h

theorem writeByteElem_elemRange (h : i < s.bytes.length) (hv : 255 < v.toNat) :
    writeByteElem i v s = raise .elemRange s :=
  (if_neg (by rw [State.nlen]; omega)).trans (if_pos hv)

theorem writeByteElem_stores (h : i < s.bytes.length) (hv : v.toNat ≤ 255) :
    writeByteElem i v s = setBytes (s.bytes.set i (BitVec.ofNat 8 v.toNat)) s :=
  (if_neg (by rw [State.nlen]; omega)).trans (if_neg (by omega))

/-- A stored value that fits is the element's value, and no other element changes. -/
theorem stored_element {k x : Nat} (l : List (BitVec k)) (hx : x < 2 ^ k) :
    (l.set i (BitVec.ofNat k x)).length = l.length ∧
      (∀ h : i < (l.set i (BitVec.ofNat k x)).length, (l.set i (BitVec.ofNat k x))[i].toNat = x) ∧
      ∀ j, j ≠ i → (l.set i (BitVec.ofNat k x))[j]? = l[j]? := by
  refine ⟨List.length_set, fun h => ?_, fun j hj => List.getElem?_set_ne hj.symm⟩
  rw [List.getElem_set_self, toNat_ofNat_of_lt hx]

/-! ## A length (R39) -/

theorem writeBlen_capacity (h : s.cfg.lmax < n.toNat) : writeBlen n s = raise .capacity s := if_pos h

theorem writeBlen_zeros (h : n.toNat ≤ s.cfg.lmax) : writeBlen n s = setBits (List.replicate n.toNat 0) s :=
  if_neg (by omega)

theorem writeNlen_capacity (h : s.cfg.nmax < n.toNat) : writeNlen n s = raise .capacity s := if_pos h

theorem writeNlen_zeros (h : n.toNat ≤ s.cfg.nmax) : writeNlen n s = setBytes (List.replicate n.toNat 0) s :=
  if_neg (by omega)

/-! ## A write that is ignored (R43, R127) -/

/-- What the running block ignores, the faulted block ignores too. -/
theorem hostWrite_ignored {slot : Slot} (h : writeSlot slot v s = .next s) : hostWrite slot v s = .next s := by
  cases hf : s.fault with
  | none => rw [hostWrite_running hf, h]
  | some c => exact hostWrite_faulted hf slot v

end Sys2Proof.Machine

open Sys2Proof Sys2Proof.Machine

/-- Settles O16: the index picks the slot, and its three outcomes are those of `writeBitElem`. -/
theorem writeOfABitElement : Obligations.WriteOfABitElement := by
  intro s i hu hf hr hs hwe hi ha
  have e : step s = .next (writeBitElem i s.nextCycle.wdata (atEdge s)) := by
    rw [step_write_running hu hf hr hs hwe, slotOf_bitWindow hi ha, writeSlot]
  refine ⟨fun hle => ?index, fun hlt hv => ?value, fun hlt hv => ?stored⟩
  case index => exact e.trans (congrArg _ (writeBitElem_indexRange hle))
  case value => exact e.trans (congrArg _ (writeBitElem_elemRange hlt hv))
  case stored =>
    exact ⟨_, e.trans (congrArg _ (writeBitElem_stores hlt hv)), rfl, stored_element s.bits (by omega)⟩

/-- Settles O17: the index picks the slot, and its three outcomes are those of `writeByteElem`. -/
theorem writeOfAByteElement : Obligations.WriteOfAByteElement := by
  intro s i hu hf hr hs hwe hi ha
  have e : step s = .next (writeByteElem i s.nextCycle.wdata (atEdge s)) := by
    rw [step_write_running hu hf hr hs hwe, slotOf_byteWindow hi ha, writeSlot]
  refine ⟨fun hle => ?index, fun hlt hv => ?value, fun hlt hv => ?stored⟩
  case index => exact e.trans (congrArg _ (writeByteElem_indexRange hle))
  case value => exact e.trans (congrArg _ (writeByteElem_elemRange hlt hv))
  case stored =>
    exact ⟨_, e.trans (congrArg _ (writeByteElem_stores hlt hv)), rfl, stored_element s.bytes (by omega)⟩

/-- Settles O18: the offset picks the length, and each has the two outcomes of its write. -/
theorem writeOfALength : Obligations.WriteOfALength := by
  intro s hu hf hr hs hwe n
  have e := step_write_running hu hf hr hs hwe
  refine ⟨fun ha => ?bits, fun ha => ?bytes⟩ <;> rw [slotOf_eq ha] at e
  case bits =>
    change step s = .next (writeBlen s.nextCycle.wdata (atEdge s)) at e
    exact ⟨fun h => e.trans (congrArg _ (writeBlen_capacity h)), fun h => e.trans (congrArg _ (writeBlen_zeros h))⟩
  case bytes =>
    change step s = .next (writeNlen s.nextCycle.wdata (atEdge s)) at e
    exact ⟨fun h => e.trans (congrArg _ (writeNlen_capacity h)), fun h => e.trans (congrArg _ (writeNlen_zeros h))⟩

/-- Settles O19: the slot of each offset; the word of an unmapped one is 0, and a write to any of them is ignored
whether or not the block is faulted (`hostWrite_ignored`). -/
theorem unmappedAndReadOnlyOffsets : Obligations.UnmappedAndReadOnlyOffsets := by
  intro s hu hr hs off unmapped
  refine ⟨fun ho hwe => ?read, fun ho hwe => ?write⟩
  case read =>
    rw [step_read hu hr hs hwe, slotOf, slotAt_unmapped ho]
    rfl
  case write =>
    rw [step_write hu hr hs hwe]
    apply hostWrite_ignored
    obtain ho | ho | ho | ho | ho := ho
    · rw [slotOf, slotAt_unmapped ho, writeSlot]
    all_goals rw [slotOf_eq ho]; rfl

/-- Settles O20: such a slot lies at or beyond the length, which the capacity bounds. -/
theorem slotsBeyondTheCapacity : Obligations.SlotsBeyondTheCapacity := by
  intro s i v hwf
  obtain ⟨hbits, hbytes⟩ := Memory.wf_iff.mp hwf
  refine ⟨fun hi => ?bits, fun hi => ?bytes⟩
  case bits =>
    have hle : s.bits.length ≤ i := hbits.trans hi
    exact ⟨readSlot_bitElem_of_length_le hle, congrArg _ (writeBitElem_indexRange hle)⟩
  case bytes =>
    have hle : s.bytes.length ≤ i := hbytes.trans hi
    exact ⟨readSlot_byteElem_of_length_le hle, congrArg _ (writeByteElem_indexRange hle)⟩

end

section
/-! SUPPORT. The decoder and the encoder as one relation between a word and a command (R50 to R60). -/

namespace Sys2Proof

variable {w : Word} {i : Instr}

/-- The word of a command as a number (R60, column "word"). -/
def Instr.code : Instr → Nat
  | .i2bits alpha => 0x10000000 + alpha
  | .bits2i alpha => 0x20000000 + alpha
  | .i2bytes alpha => 0x30000000 + alpha
  | .bits2bytes => 0x40000000
  | .bytes2bits => 0x50000000
  | .c3b b0 b1 b2 => 0x60000000 + 65536 * b2.toNat + 256 * b1.toNat + b0.toNat
  | .chb b eta => 0x70000000 + 256 * eta.toNat + b.toNat

theorem encode_eq_ofNat_code (i : Instr) : encode i = BitVec.ofNat 32 i.code := by cases i <;> rfl

/-- The operands of a well-formed command leave its opcode alone, so its number fits the word. -/
theorem Instr.code_lt (h : i.wf = true) : i.code < 2 ^ 32 := by
  cases i with
  | i2bits alpha | bits2i alpha | i2bytes alpha =>
    have := of_decide_eq_true h
    simp only [code]; omega
  | bits2bytes | bytes2bits => decide
  | c3b b0 b1 b2 =>
    have := b0.isLt; have := b1.isLt; have := b2.isLt
    simp only [code]; omega
  | chb b eta =>
    have := b.isLt; have := eta.isLt
    simp only [code]; omega

theorem encode_toNat (h : i.wf = true) : (encode i).toNat = i.code := by
  rw [encode_eq_ofNat_code, BitVec.toNat_ofNat, Nat.mod_eq_of_lt (Instr.code_lt h)]

/-- A command the decoder reads is well-formed and its number is the word's: the fields read make up the word. -/
theorem wf_and_code_of_decode (h : decode w = .ok i) : i.wf = true ∧ w.toNat = i.code := by
  have hopc := field_opc w
  have hrsv := field_rsv w
  have hz := field_z w
  have himm := field_imm w
  have halpha := field_alpha w
  obtain ⟨_, e⟩ | ⟨_, ⟨_, ⟨_, e⟩ | ⟨_, e⟩⟩ | ⟨_, ⟨_, e⟩ | ⟨_, e⟩⟩ | ⟨_, ⟨_, e⟩ | ⟨_, e⟩⟩ | ⟨_, ⟨_, e⟩ | ⟨_, e⟩⟩ |
    ⟨_, ⟨_, e⟩ | ⟨_, e⟩⟩ | ⟨_, e⟩ | ⟨_, ⟨_, e⟩ | ⟨_, e⟩⟩ | ⟨_, e⟩⟩ := decode_cases w
  all_goals cases e.symm.trans h
  all_goals
    simp only [Instr.wf, Instr.code, decide_eq_true_eq, true_and, byteField_zero_toNat, byteField_eight_toNat,
      byteField_sixteen_toNat]
    omega

/-- Every well-formed command's word carries its opcode and 0 in `RSV` (R50, R55). -/
theorem fixedFields (i : Instr) : Laws.FixedFields.Statement i := by
  cases i with
  | i2bits alpha => exact Laws.FixedFields.i2bits alpha
  | bits2i alpha => exact Laws.FixedFields.bits2i alpha
  | i2bytes alpha => exact Laws.FixedFields.i2bytes alpha
  | bits2bytes => exact Laws.FixedFields.bits2bytes
  | bytes2bits => exact Laws.FixedFields.bytes2bits
  | c3b b0 b1 b2 => exact Laws.FixedFields.c3b b0 b1 b2
  | chb b eta => exact Laws.FixedFields.chb b eta

/-- The word of a well-formed command decodes to it: the opcode picks its arm, the must-be-zero field is 0, and each
operand field holds the operand put there. -/
theorem decode_encode (h : i.wf = true) : decode (encode i) = .ok i := by
  obtain ⟨hopc, hrsv⟩ := fixedFields i h
  have hcode := encode_toNat h
  have hz := field_z (encode i)
  have himm := field_imm (encode i)
  have halpha := field_alpha (encode i)
  have hb0 := byteField_zero_toNat (encode i)
  have hb1 := byteField_eight_toNat (encode i)
  have hb2 := byteField_sixteen_toNat (encode i)
  generalize encode i = w at *
  cases i with
  | i2bits alpha | bits2i alpha | i2bytes alpha =>
    have hlt := of_decide_eq_true h
    simp only [Instr.code] at hcode
    have hz0 : field w 23 16 = 0 := by omega
    have ha : field w 15 0 = alpha := by omega
    simp [decode, hopc, hrsv, hz0, ha, Laws.opcode]
  | bits2bytes | bytes2bits =>
    simp only [Instr.code] at hcode
    have himm0 : field w 23 0 = 0 := by omega
    simp [decode, hopc, hrsv, himm0, Laws.opcode]
  | c3b b0 b1 b2 =>
    have := b0.isLt; have := b1.isLt; have := b2.isLt
    simp only [Instr.code] at hcode
    have h0 : byteField w 0 = b0 := BitVec.eq_of_toNat_eq (by omega)
    have h1 : byteField w 8 = b1 := BitVec.eq_of_toNat_eq (by omega)
    have h2 : byteField w 16 = b2 := BitVec.eq_of_toNat_eq (by omega)
    simp [decode, hopc, hrsv, h0, h1, h2, Laws.opcode]
  | chb b eta =>
    have := b.isLt; have := eta.isLt
    simp only [Instr.code] at hcode
    have hz0 : field w 23 16 = 0 := by omega
    have h0 : byteField w 0 = b := BitVec.eq_of_toNat_eq (by omega)
    have h1 : byteField w 8 = eta := BitVec.eq_of_toNat_eq (by omega)
    simp [decode, hopc, hrsv, hz0, h0, h1, Laws.opcode]

/-- The decoder reads a command from a word exactly when the command is well-formed and its number is the word's. -/
theorem decode_eq_ok_iff : decode w = .ok i ↔ i.wf = true ∧ w.toNat = i.code := by
  refine ⟨wf_and_code_of_decode, fun ⟨hwf, hcode⟩ => ?_⟩
  have hw : w = encode i := BitVec.eq_of_toNat_eq (hcode.trans (encode_toNat hwf).symm)
  rw [hw, decode_encode hwf]

end Sys2Proof

open Sys2Proof

/-- Settles O26: `decode_encode`. -/
theorem decodeOfEncode : Obligations.DecodeOfEncode := fun _ h => decode_encode h

/-- Settles O27: the fields read make up the word (`wf_and_code_of_decode`). -/
theorem encodeOfDecode : Obligations.EncodeOfDecode := by
  intro w i h
  obtain ⟨hwf, hcode⟩ := wf_and_code_of_decode h
  exact ⟨hwf, BitVec.eq_of_toNat_eq ((encode_toNat hwf).trans hcode.symm)⟩

/-- Settles O28: the seven words decoded. -/
theorem handWrittenWords : Obligations.HandWrittenWords := by
  unfold Obligations.HandWrittenWords
  decide

end


section
/-! SUPPORT. The rows of the opcode map as ranges of words (R55), and how many words they hold (R56). -/

namespace Sys2Proof

/-! ## The commands of each row -/

/-- The row of a command with a length: the length fills the 16 low bits (R51). -/
theorem exists_length_iff (w : Word) {mk : Nat → Instr} {c : Nat} (hwf : ∀ α, (mk α).wf = decide (α < 2 ^ 16))
    (hcode : ∀ α, (mk α).code = c * 2 ^ 16 + α) : (∃ α, decode w = .ok (mk α)) ↔ w.toNat / 2 ^ 16 = c := by
  simp only [decode_eq_ok_iff, hwf, hcode, decide_eq_true_eq]
  exact ⟨fun ⟨α, _, _⟩ => by omega, fun _ => ⟨w.toNat % 2 ^ 16, by omega, by omega⟩⟩

theorem exists_i2bits_iff (w : Word) : (∃ α, decode w = .ok (.i2bits α)) ↔ w.toNat / 2 ^ 16 = 0x1000 :=
  exists_length_iff w (fun _ => rfl) fun _ => rfl

theorem exists_bits2i_iff (w : Word) : (∃ α, decode w = .ok (.bits2i α)) ↔ w.toNat / 2 ^ 16 = 0x2000 :=
  exists_length_iff w (fun _ => rfl) fun _ => rfl

theorem exists_i2bytes_iff (w : Word) : (∃ α, decode w = .ok (.i2bytes α)) ↔ w.toNat / 2 ^ 16 = 0x3000 :=
  exists_length_iff w (fun _ => rfl) fun _ => rfl

theorem decode_bits2bytes_iff (w : Word) : decode w = .ok .bits2bytes ↔ w.toNat = 0x40000000 := by
  simp only [decode_eq_ok_iff, Instr.wf, Instr.code, true_and]

theorem decode_bytes2bits_iff (w : Word) : decode w = .ok .bytes2bits ↔ w.toNat = 0x50000000 := by
  simp only [decode_eq_ok_iff, Instr.wf, Instr.code, true_and]

theorem exists_c3b_iff (w : Word) : (∃ b0 b1 b2, decode w = .ok (.c3b b0 b1 b2)) ↔ w.toNat / 2 ^ 24 = 0x60 := by
  simp only [decode_eq_ok_iff, Instr.wf, Instr.code, true_and]
  constructor
  · rintro ⟨b0, b1, b2, h⟩
    have := b0.isLt; have := b1.isLt; have := b2.isLt
    omega
  · intro h
    refine ⟨.ofNat 8 w.toNat, .ofNat 8 (w.toNat / 2 ^ 8), .ofNat 8 (w.toNat / 2 ^ 16), ?_⟩
    simp only [BitVec.toNat_ofNat]
    omega

theorem exists_chb_iff (w : Word) : (∃ b eta, decode w = .ok (.chb b eta)) ↔ w.toNat / 2 ^ 16 = 0x7000 := by
  simp only [decode_eq_ok_iff, Instr.wf, Instr.code, true_and]
  constructor
  · rintro ⟨b, eta, h⟩
    have := b.isLt; have := eta.isLt
    omega
  · intro h
    refine ⟨.ofNat 8 w.toNat, .ofNat 8 (w.toNat / 2 ^ 8), ?_⟩
    simp only [BitVec.toNat_ofNat]
    omega

/-! ## Mask and match -/

/-- Masking the `n` low bits off is shifting them out and back. -/
theorem and_highMask {k : Nat} (w : BitVec k) (n : Nat) : w &&& BitVec.allOnes k <<< n = w >>> n <<< n := by
  ext i hi
  by_cases h : i < n
  · simp [h]
  · have hi' : n + (i - n) = i := by omega
    simp [h, hi, hi']

/-- A mask of all but the `n` low bits keeps the quotient by `2 ^ n`. -/
theorem and_highMask_eq_iff (w : Word) {n c : Nat} (hc : c * 2 ^ n < 2 ^ 32) :
    w &&& BitVec.allOnes 32 <<< n = BitVec.ofNat 32 (c * 2 ^ n) ↔ w.toNat / 2 ^ n = c := by
  have hle := Nat.div_mul_le_self w.toNat (2 ^ n)
  have hlt : w.toNat / 2 ^ n * 2 ^ n < 2 ^ 32 := hle.trans_lt w.isLt
  rw [and_highMask, ← BitVec.toNat_inj, BitVec.toNat_shiftLeft, BitVec.toNat_ushiftRight, Nat.shiftRight_eq_div_pow,
    Nat.shiftLeft_eq, Nat.mod_eq_of_lt hlt, BitVec.toNat_ofNat, Nat.mod_eq_of_lt hc]
  exact Nat.mul_left_inj (by positivity)

theorem and_fullMask_eq_iff (w m : Word) : w &&& BitVec.allOnes 32 = m ↔ w.toNat = m.toNat := by
  rw [BitVec.and_allOnes, BitVec.toNat_inj]

/-! ## All command words -/

/-- The numbers of the command words, row by row (R55, R56). -/
def commandCodes : Finset Nat :=
  .Ico 0x10000000 0x10010000 ∪ (.Ico 0x20000000 0x20010000 ∪ (.Ico 0x30000000 0x30010000 ∪ (.Ico 0x40000000 0x40000001 ∪
    (.Ico 0x50000000 0x50000001 ∪ (.Ico 0x60000000 0x61000000 ∪ .Ico 0x70000000 0x70010000)))))

theorem exists_decode_iff (w : Word) : (∃ i, decode w = .ok i) ↔ w.toNat ∈ commandCodes := by
  have hrows : (∃ i, decode w = .ok i) ↔ (∃ α, decode w = .ok (.i2bits α)) ∨ (∃ α, decode w = .ok (.bits2i α)) ∨
      (∃ α, decode w = .ok (.i2bytes α)) ∨ decode w = .ok .bits2bytes ∨ decode w = .ok .bytes2bits ∨
      (∃ b0 b1 b2, decode w = .ok (.c3b b0 b1 b2)) ∨ ∃ b eta, decode w = .ok (.chb b eta) := by
    constructor
    · rintro ⟨i, h⟩
      cases i <;> simp [h]
    · rintro (⟨_, h⟩ | ⟨_, h⟩ | ⟨_, h⟩ | h | h | ⟨_, _, _, h⟩ | ⟨_, _, h⟩) <;> exact ⟨_, h⟩
  rw [hrows, exists_i2bits_iff, exists_bits2i_iff, exists_i2bytes_iff, decode_bits2bytes_iff, decode_bytes2bits_iff,
    exists_c3b_iff, exists_chb_iff]
  simp only [commandCodes, Finset.mem_union, Finset.mem_Ico]
  omega

theorem lt_of_mem_commandCodes {n : Nat} (h : n ∈ commandCodes) : n < 2 ^ 32 := by
  simp only [commandCodes, Finset.mem_union, Finset.mem_Ico] at h
  omega

theorem card_commandCodes : commandCodes.card = 17039362 := by
  unfold commandCodes
  iterate 6 rw [Finset.card_union_of_disjoint (by
    simp only [Finset.disjoint_left, Finset.mem_union, Finset.mem_Ico]; omega)]
  simp only [Nat.card_Ico]

end Sys2Proof

open Sys2Proof

/-- Settles O25: each row is a range of words, which its mask and match describe. -/
theorem rowsAreMaskAndMatch : Obligations.RowsAreMaskAndMatch := by
  intro w
  have row16 {c : Nat} := and_highMask_eq_iff w (n := 16) (c := c)
  have row24 {c : Nat} := and_highMask_eq_iff w (n := 24) (c := c)
  exact ⟨(exists_i2bits_iff w).trans (row16 (by decide)).symm,
    (exists_bits2i_iff w).trans (row16 (by decide)).symm,
    (exists_i2bytes_iff w).trans (row16 (by decide)).symm,
    (decode_bits2bytes_iff w).trans (and_fullMask_eq_iff w 0x40000000).symm,
    (decode_bytes2bits_iff w).trans (and_fullMask_eq_iff w 0x50000000).symm,
    (exists_c3b_iff w).trans (row24 (by decide)).symm,
    (exists_chb_iff w).trans (row16 (by decide)).symm⟩

/-- Settles O24: the words stand for the numbers of the rows, and the rows are disjoint. -/
theorem commandWordCount : Obligations.CommandWordCount := by
  have himage : BitVec.toNat '' { w : Word | ∃ i, decode w = .ok i } = commandCodes := by
    ext n
    constructor
    · rintro ⟨w, h, rfl⟩
      exact (exists_decode_iff w).mp h
    · intro h
      have hn : (BitVec.ofNat 32 n).toNat = n := Machine.toNat_ofNat_of_lt (lt_of_mem_commandCodes h)
      exact ⟨.ofNat 32 n, (exists_decode_iff _).mpr (by rwa [hn]), hn⟩
  unfold Obligations.CommandWordCount
  rw [← Set.ncard_image_of_injective _ (fun _ _ => BitVec.eq_of_toNat_eq), himage, Set.ncard_coe_finset,
    card_commandCodes]

end


section
/-! SUPPORT. What a write to `CMD` does (R59), by the fields of the word written. -/

namespace Sys2Proof

variable {w : Word} {lo n : Nat}

/-- A slice of a word has a value exactly when the field of the same bits does. -/
theorem extractLsb'_eq_iff_field (hn : 0 < n) {v : BitVec n} :
    w.extractLsb' lo n = v ↔ field w (lo + n - 1) lo = v.toNat := by
  rw [← BitVec.toNat_inj, extractLsb'_toNat_eq_field _ _ _ hn]

theorem byteField_eq_extractLsb' : byteField w lo = w.extractLsb' lo 8 := by
  apply BitVec.eq_of_toNat_eq
  simp [byteField, field, Nat.shiftRight_eq_div_pow]

theorem decode_of_decodeTableWord {nbits v : Nat} {i : Instr} (h : decodeTableWord nbits v = some i) :
    decode (BitVec.ofNat 32 (v % 2 ^ nbits)) = .ok i := by
  unfold decodeTableWord at h
  split at h
  next j e => rw [e, Option.some.inj h]
  next => cases h

end Sys2Proof

namespace Sys2Proof.Machine

variable {s : State} {w : Word} {i : Instr}

theorem performCommand_ok (h : decode w = .ok i) : performCommand w s = exec i s := by
  rw [performCommand, h]

theorem performCommand_error {r : Reserved} (h : decode w = .error r) :
    performCommand w s = .next (raise .illegalCmd s) := by
  rw [performCommand, h]

/-- A running block's `CMD` write performs the word written (R59). -/
theorem step_cmd_running (hu : InUse s) (hf : Running s) (hr : s.nextCycle.rst = false) (hs : s.nextCycle.sel = true)
    (hwe : s.nextCycle.we = true) (ha : s.nextCycle.addr = 0) :
    step s = performCommand s.nextCycle.wdata (atEdge s) := by
  rw [step_write_running hu hf hr hs hwe, ha]
  rfl

theorem step_cmd_decoded (hu : InUse s) (hf : Running s) (hr : s.nextCycle.rst = false) (hs : s.nextCycle.sel = true)
    (hwe : s.nextCycle.we = true) (ha : s.nextCycle.addr = 0) (h : decode s.nextCycle.wdata = .ok i) :
    step s = exec i (atEdge s) := by
  rw [step_cmd_running hu hf hr hs hwe ha, performCommand_ok h]

/-- Bit 0 of `STATUS` is `VALID` (R18). -/
theorem statusWord_bit_zero (s : State) : s.statusWord.toNat % 2 = s.valid := by
  have := valid_le_one s
  rw [statusWord_toNat]
  omega

/-! ## The host's next cycle -/

theorem nextCycle_of_host {c : PortIn} {rest : List PortIn} (h : s.host = c :: rest) : s.nextCycle = c := by
  rw [State.nextCycle, h, List.headD_cons]

theorem atEdge_of_host {c : PortIn} {rest : List PortIn} (h : s.host = c :: rest) :
    atEdge s = { s with host := rest, rdata := 0 } := by
  rw [atEdge, takeCycle, h]
  rfl

end Sys2Proof.Machine

open Sys2Proof Sys2Proof.Machine

/-- Settles O22: the decoder's answers by opcode (`decode_cases`), the slices of the word read as its fields; left over
is the opcode that is none of the seven. -/
theorem commandWriteDecodes : Obligations.CommandWriteDecodes := by
  intro s hu hr hs hwe ha w opc illegal ifZ
  refine ⟨fun c hc => ?frozen, fun hf => ?running⟩
  case frozen => rw [step_write hu hr hs hwe, hostWrite_faulted (s := atEdge s) hc]
  case running =>
    have hok {i} : decode w = .ok i → performCommand w (atEdge s) = exec i (atEdge s) := performCommand_ok
    have herr {r} : decode w = .error r → performCommand w (atEdge s) = illegal := performCommand_error
    rw [step_cmd_running hu hf hr hs hwe ha]
    change performCommand w (atEdge s) = _
    simp only [opc, ifZ, extractLsb'_toNat_eq_field _ _ _ (by decide : 0 < 4), ne_eq, beq_iff_eq,
      extractLsb'_eq_iff_field (by decide : 0 < 4), extractLsb'_eq_iff_field (by decide : 0 < 8),
      extractLsb'_eq_iff_field (by decide : 0 < 24), extractLsb'_toNat_eq_field _ _ _ (by decide : 0 < 16)]
    simp only [← byteField_eq_extractLsb']
    obtain ⟨hrsv, e⟩ | ⟨hrsv, ⟨hopc, ⟨hz, e⟩ | ⟨hz, e⟩⟩ | ⟨hopc, ⟨hz, e⟩ | ⟨hz, e⟩⟩ | ⟨hopc, ⟨hz, e⟩ | ⟨hz, e⟩⟩ |
      ⟨hopc, ⟨hz, e⟩ | ⟨hz, e⟩⟩ | ⟨hopc, ⟨hz, e⟩ | ⟨hz, e⟩⟩ | ⟨hopc, e⟩ | ⟨hopc, ⟨hz, e⟩ | ⟨hz, e⟩⟩ |
      ⟨hopc, e⟩⟩ := decode_cases w
    all_goals simp [*]
    have hne : ∀ k, 1 ≤ k → k ≤ 7 → field w 31 28 ≠ k := by omega
    simp [hne]

/-- Settles O23: the decoder's answers by opcode (`decode_cases`), the slices of the word read as its fields; left over
is the opcode that is none of the seven, 0 or at least 8. -/
theorem reservedWordsFault : Obligations.ReservedWordsFault := by
  intro w
  refine ⟨?words, fun s r h hf => ?fault⟩
  case words =>
    simp only [extractLsb'_toNat_eq_field _ _ _ (by decide : 0 < 4), List.mem_cons, List.not_mem_nil, or_false,
      extractLsb'_eq_iff_field (by decide : 0 < 4), extractLsb'_eq_iff_field (by decide : 0 < 8),
      extractLsb'_eq_iff_field (by decide : 0 < 24), ne_eq]
    obtain ⟨hrsv, e⟩ | ⟨hrsv, ⟨hopc, ⟨hz, e⟩ | ⟨hz, e⟩⟩ | ⟨hopc, ⟨hz, e⟩ | ⟨hz, e⟩⟩ | ⟨hopc, ⟨hz, e⟩ | ⟨hz, e⟩⟩ |
      ⟨hopc, ⟨hz, e⟩ | ⟨hz, e⟩⟩ | ⟨hopc, ⟨hz, e⟩ | ⟨hz, e⟩⟩ | ⟨hopc, e⟩ | ⟨hopc, ⟨hz, e⟩ | ⟨hz, e⟩⟩ |
      ⟨hopc, e⟩⟩ := decode_cases w
    all_goals simp [*]
    omega
  case fault => rw [hostWrite_running hf, writeSlot, performCommand_error h, raise]

/-- Settles O29: the word that `withFetchWord` places and the one a command line writes are words of `CMD` writes
(`step_cmd_decoded`), and the latter decodes to its command (`decode_encode`). -/
theorem stepRunsTheDecodedCommand : Obligations.StepRunsTheDecodedCommand := by
  refine ⟨fun s i => step_cmd_decoded, fun s i nbits w hu hf h => ?fetched, fun s i rest hu hf hwf hhost => ?line⟩
  case fetched =>
    exact step_cmd_decoded (s := s.withFetchWord nbits w) hu hf rfl rfl rfl rfl (decode_of_decodeTableWord h)
  case line =>
    have hnext : s.nextCycle = commandLine i := nextCycle_of_host hhost
    rw [← atEdge_of_host hhost]
    apply step_cmd_decoded hu hf <;> rw [hnext]
    case h => exact decode_encode hwf
    all_goals rfl

/-- Settles O14: bit 0 of `STATUS` is `VALID`, which tells whether `COEF` holds a value. -/
theorem getcoefGivesTheOptionalResult : Obligations.GetcoefGivesTheOptionalResult := by
  intro s w h
  rw [getCoefValue, statusWord_bit_zero, State.valid]
  cases hc : s.coef with
  | none => rfl
  | some c => rw [h c hc]; rfl

end


section
/-! SUPPORT. The host's writes as steps, and the loads of R62 run to their end (R37, R38, R39, R61). -/

namespace Sys2Proof.Machine

variable {s : State} {k : Nat}

/-! ## One line `WR name, value` (R61) -/

/-- `WR` in a running block in use: `MemWrite` to the slot the map has at the name's offset. -/
theorem step_wr {name : Slot} {v : Nat} {rest : List PortIn} (hu : InUse s) (hf : Running s)
    (hhost : s.host = wr name v :: rest) :
    step s = writeSlot (slotOf (portAddr name.offset)) (BitVec.ofNat 32 v) { s with host := rest, rdata := 0 } := by
  have hnext := nextCycle_of_host hhost
  rw [← atEdge_of_host hhost, step_write_running hu hf (by rw [hnext]; rfl) (by rw [hnext]; rfl) (by rw [hnext]; rfl),
    hnext]
  rfl

/-! ## Runs of steps -/

theorem runSteps_succ {t : State} {n : Nat} (h : step s = .next t) : runSteps (n + 1) s = runSteps n t := by
  rw [runSteps, h]

/-! ## The two windows as one

`LDBITS` and `LDBYTES` differ in the window they write; the induction over the sequence is one. -/

/-- `wrBitsFrom` and `wrBytesFrom` for a window of `k`-bit elements. -/
def wrElemsFrom (slot : Nat → Slot) (skip : Nat → Bool) : Nat → List (BitVec k) → List PortIn
  | _, [] => []
  | i, b :: rest =>
    if skip i ∧ b = 0 then wrElemsFrom slot skip (i + 1) rest
    else wr (slot i) b.toNat :: wrElemsFrom slot skip (i + 1) rest

theorem wrBitsFrom_eq (skip : Nat → Bool) (i : Nat) (l : List Bit) :
    wrBitsFrom skip i l = wrElemsFrom .bitElem skip i l := by
  induction l generalizing i with
  | nil => rfl
  | cons b l ih => rw [wrBitsFrom, wrElemsFrom, ih]

theorem wrBytesFrom_eq (skip : Nat → Bool) (i : Nat) (l : List Byte) :
    wrBytesFrom skip i l = wrElemsFrom .byteElem skip i l := by
  induction l generalizing i with
  | nil => rfl
  | cons b l ih => rw [wrBytesFrom, wrElemsFrom, ih]

/-- Without skips every element has its write. -/
theorem length_wrElemsFrom_all (slot : Nat → Slot) (i : Nat) (l : List (BitVec k)) :
    (wrElemsFrom slot (fun _ => false) i l).length = l.length := by
  induction l generalizing i with
  | nil => rfl
  | cons b l ih => simp [wrElemsFrom, ih]

/-- The element writes of a load, from index `pre.length` on, over a sequence that ends in zeros: they leave the
elements named, whichever zeros were skipped. `load m rest` is the state with the sequence `m` and the host's cycles
`rest`. -/
theorem runSteps_wrElemsFrom {slot : Nat → Slot} {load : List (BitVec k) → List PortIn → State} {n : Nat}
    (hstore : ∀ (m : List (BitVec k)) (i : Nat) (v : BitVec k) (rest : List PortIn), m.length = n → i < n →
      step (load m (wr (slot i) v.toNat :: rest)) = .next (load (m.set i v) rest))
    (skip : Nat → Bool) (l pre : List (BitVec k)) (rest : List PortIn) (hn : pre.length + l.length = n) :
    runSteps (wrElemsFrom slot skip pre.length l).length
      (load (pre ++ List.replicate l.length 0) (wrElemsFrom slot skip pre.length l ++ rest)) =
        .next (load (pre ++ l) rest) := by
  induction l generalizing pre with
  | nil => rfl
  | cons b l ih =>
    have hn' : (pre ++ [b]).length + l.length = n := by simp at hn ⊢; omega
    have ih' := ih (pre ++ [b]) hn'
    simp only [List.length_append, List.length_singleton, List.append_assoc, List.singleton_append] at ih'
    rw [List.length_cons, List.replicate_succ, wrElemsFrom]
    split
    next h =>
      obtain ⟨-, rfl⟩ := h
      exact ih'
    next =>
      rw [List.length_cons, List.cons_append, runSteps_succ (hstore _ _ b _ _ _)]
      · simpa using ih'
      · simp at hn ⊢; omega
      · simp at hn; omega

/-! ## The loads (R62) -/

/-- The capacities lie within the windows (R6, R32). -/
theorem capacities_le (hc : s.cfg.wf = true) : s.cfg.lmax ≤ 8192 ∧ s.cfg.nmax ≤ 1024 := by
  obtain ⟨-, -, -, hnmax⟩ : 1 ≤ s.cfg.q ∧ s.cfg.q ≤ 8388608 ∧ 8 ≤ s.cfg.nmax ∧ s.cfg.nmax ≤ 1024 := by
    simpa [Config.wf] using hc
  rw [Config.lmax]
  omega

/-- `s` in the middle of a load: `BITS` so far, the host's cycles left, and the 0 a write drives. -/
def loadingBits (s : State) (m : List Bit) (rest : List PortIn) : State :=
  { s with host := rest, rdata := 0, bits := m }

/-- `s` in the middle of a load of `BYTES`, as `loadingBits`. -/
def loadingBytes (s : State) (m : List Byte) (rest : List PortIn) : State :=
  { s with host := rest, rdata := 0, bytes := m }

theorem step_wr_bitElem (hu : InUse s) (hf : Running s) {m : List Bit} {i : Nat} (hi : i < m.length)
    (hm : m.length ≤ s.cfg.lmax) (v : Bit) (rest : List PortIn) :
    step (loadingBits s m (wr (.bitElem i) v.toNat :: rest)) = .next (loadingBits s (m.set i v) rest) := by
  have hcap := capacities_le hu.1
  have hv : (BitVec.ofNat 32 v.toNat).toNat = v.toNat := toNat_ofNat_of_lt (by omega)
  rw [step_wr (s := loadingBits s m _) (rest := rest) hu hf rfl, slotOf_bitElem (by omega), writeSlot,
    writeBitElem_stores (by exact hi) (by omega), hv, BitVec.ofNat_toNat, BitVec.setWidth_eq]
  rfl

theorem step_wr_byteElem (hu : InUse s) (hf : Running s) {m : List Byte} {i : Nat} (hi : i < m.length)
    (hm : m.length ≤ s.cfg.nmax) (v : Byte) (rest : List PortIn) :
    step (loadingBytes s m (wr (.byteElem i) v.toNat :: rest)) = .next (loadingBytes s (m.set i v) rest) := by
  have hcap := capacities_le hu.1
  have hv : (BitVec.ofNat 32 v.toNat).toNat = v.toNat := toNat_ofNat_of_lt (by omega)
  rw [step_wr (s := loadingBytes s m _) (rest := rest) hu hf rfl, slotOf_byteElem (by omega), writeSlot,
    writeByteElem_stores (by exact hi) (by omega), hv, BitVec.ofNat_toNat, BitVec.setWidth_eq]
  rfl

/-- `LDBITS l`, whichever zero elements it skips: the length write zeroes the sequence, the element writes fill it. -/
theorem runSteps_ldBitsSkipping (hu : InUse s) (hf : Running s) (skip : Nat → Bool) {l : List Bit}
    {rest : List PortIn} (hl : l.length ≤ s.cfg.lmax) (hhost : s.host = ldBitsSkipping skip l ++ rest) :
    runSteps (ldBitsSkipping skip l).length s = .next { s with host := rest, rdata := 0, bits := l } := by
  have hcap := capacities_le hu.1
  have hlen : (BitVec.ofNat 32 l.length).toNat = l.length := toNat_ofNat_of_lt (by omega)
  rw [ldBitsSkipping, wrBitsFrom_eq] at hhost ⊢
  have hfirst : step s = .next (loadingBits s (List.replicate l.length 0) (wrElemsFrom .bitElem skip 0 l ++ rest)) := by
    refine (step_wr hu hf hhost).trans (congrArg _ ((writeBlen_zeros ?_).trans ?_)) <;> rw [hlen]
    · exact hl
    · rfl
  rw [List.length_cons, runSteps_succ hfirst]
  have hstore (m : List Bit) (i : Nat) (v : Bit) (rest : List PortIn) (hm : m.length = l.length)
      (hi : i < l.length) := step_wr_bitElem hu hf (hm ▸ hi) (hm ▸ hl) v rest
  exact runSteps_wrElemsFrom hstore skip l [] rest (Nat.zero_add _)

/-- `LDBYTES l`, as `runSteps_ldBitsSkipping`. -/
theorem runSteps_ldBytesSkipping (hu : InUse s) (hf : Running s) (skip : Nat → Bool) {l : List Byte}
    {rest : List PortIn} (hl : l.length ≤ s.cfg.nmax) (hhost : s.host = ldBytesSkipping skip l ++ rest) :
    runSteps (ldBytesSkipping skip l).length s = .next { s with host := rest, rdata := 0, bytes := l } := by
  have hcap := capacities_le hu.1
  have hlen : (BitVec.ofNat 32 l.length).toNat = l.length := toNat_ofNat_of_lt (by omega)
  rw [ldBytesSkipping, wrBytesFrom_eq] at hhost ⊢
  have hfirst : step s =
      .next (loadingBytes s (List.replicate l.length 0) (wrElemsFrom .byteElem skip 0 l ++ rest)) := by
    refine (step_wr hu hf hhost).trans (congrArg _ ((writeNlen_zeros ?_).trans ?_)) <;> rw [hlen]
    · exact hl
    · rfl
  rw [List.length_cons, runSteps_succ hfirst]
  have hstore (m : List Byte) (i : Nat) (v : Byte) (rest : List PortIn) (hm : m.length = l.length)
      (hi : i < l.length) := step_wr_byteElem hu hf (hm ▸ hi) (hm ▸ hl) v rest
  exact runSteps_wrElemsFrom hstore skip l [] rest (Nat.zero_add _)

/-- The two halves written make up the integer (R11, R34). -/
theorem setXHi_setXLo {v : Nat} (hv : v < 2 ^ 64) (s : State) :
    setXHi (BitVec.ofNat 32 (v / 2 ^ 32)) (setXLo (BitVec.ofNat 32 (v % 2 ^ 32)) s) =
      { s with x := BitVec.ofNat 64 v } := by
  have hx : (setXHi (BitVec.ofNat 32 (v / 2 ^ 32)) (setXLo (BitVec.ofNat 32 (v % 2 ^ 32)) s)).x =
      BitVec.ofNat 64 v := by
    apply BitVec.eq_of_toNat_eq
    rw [setXHi_toNat, setXLo_toNat]
    simp only [BitVec.toNat_ofNat]
    omega
  rw [← hx]
  rfl

theorem runSteps_setX (hu : InUse s) (hf : Running s) {v : Nat} {rest : List PortIn} (hv : v < 2 ^ 64)
    (hhost : s.host = setX v ++ rest) :
    runSteps 2 s = .next { s with host := rest, rdata := 0, x := BitVec.ofNat 64 v } := by
  have hlo : step s = .next (setXLo (BitVec.ofNat 32 (v % 2 ^ 32))
      { s with host := wr .xHi (v / 2 ^ 32) :: rest, rdata := 0 }) := step_wr hu hf hhost
  have hhi := step_wr (s := setXLo (BitVec.ofNat 32 (v % 2 ^ 32))
    { s with host := wr .xHi (v / 2 ^ 32) :: rest, rdata := 0 }) (name := .xHi) hu hf rfl
  rw [runSteps_succ hlo, runSteps_succ hhi]
  exact congrArg _ (setXHi_setXLo hv { s with host := rest, rdata := 0 })

end Sys2Proof.Machine

open Sys2Proof Sys2Proof.Machine

/-- Settles O21: `SETX` writes the two halves; the loads with every write skip nothing. -/
theorem loadingAnOperand : Obligations.LoadingAnOperand := by
  refine ⟨fun s v rest hu hf hv hhost => runSteps_setX hu hf hv hhost, fun s l rest hu hf hl hhost => ?bits,
    fun s l rest hu hf hl hhost => ?bytes⟩
  case bits =>
    have hlen : (ldBits l).length = l.length + 1 := by
      rw [ldBits, ldBitsSkipping, wrBitsFrom_eq, List.length_cons, length_wrElemsFrom_all]
    exact hlen ▸ runSteps_ldBitsSkipping hu hf _ hl hhost
  case bytes =>
    have hlen : (ldBytes l).length = l.length + 1 := by
      rw [ldBytes, ldBytesSkipping, wrBytesFrom_eq, List.length_cons, length_wrElemsFrom_all]
    exact hlen ▸ runSteps_ldBytesSkipping hu hf _ hl hhost

end


section
/-! SUPPORT. The scripts that read, run to their value in any state in use, faulted or not (R33, R62). -/

namespace Sys2Proof.Machine

variable {s : State} {k : Nat}

/-- What was read last is no word of the map. -/
theorem readSlot_rdata (w : Word) (slot : Slot) : readSlot { s with rdata := w } slot = readSlot s slot := by
  cases slot <;> rfl

/-- A script's read of a word the map gives, after other reads: only the word read last remains of it. -/
theorem runScript_rd_rdata {α : Type} {name : Slot} {w r : Word} (next : Word → HostScript α) (hu : InUse s)
    (hw : readSlot s (slotOf (portAddr name.offset)) = some w) :
    runScript (.access (rd name) next) { s with rdata := r } = runScript (next w) { s with rdata := w } :=
  runScript_rd (s := { s with rdata := r }) next hu ((readSlot_rdata r _).trans hw)

/-- Reading the `n` elements from `i` on after the first `i` gives the whole sequence, where the window's slot `j` reads
as the word of element `j`, out of which `elem` takes it. -/
theorem runScript_readElems {slot : Nat → Slot} {elem : Word → BitVec k} {l : List (BitVec k)} (hu : InUse s)
    (hread : ∀ (j : Nat) (h : j < l.length),
      ∃ w, readSlot s (slotOf (portAddr (slot j).offset)) = some w ∧ elem w = l[j])
    (n i : Nat) (r : Word) (hn : i + n = l.length) :
    ∃ w, runScript (readElems slot elem i n (l.take i)) { s with rdata := r } = .next ({ s with rdata := w }, l) := by
  induction n generalizing i r with
  | zero => exact ⟨r, by rw [readElems, List.take_of_length_le (by omega), runScript]⟩
  | succ n ih =>
    obtain ⟨w, hw, he⟩ := hread i (by omega)
    obtain ⟨w', h'⟩ := ih (i + 1) w (by omega)
    refine ⟨w', ?_⟩
    rw [readElems, runScript_rd_rdata _ hu hw, he, List.take_append_getElem]
    exact h'

/-- The low bits of an element's word are the element (R35). -/
theorem elem_of_word (hk : k ≤ 32) (v : BitVec k) : (BitVec.ofNat 32 v.toNat).extractLsb' 0 k = v := by
  have hv := v.isLt
  have hle : 2 ^ k ≤ 2 ^ 32 := Nat.pow_le_pow_right (by decide) hk
  apply BitVec.eq_of_toNat_eq
  rw [BitVec.extractLsb'_toNat, toNat_ofNat_of_lt (by omega), Nat.shiftRight_zero, Nat.mod_eq_of_lt hv]

/-- The script of a sequence: its length, then that many elements. -/
theorem runScript_sequence {name : Slot} {slot : Nat → Slot} {l : List (BitVec k)} (hk : k ≤ 32) (hu : InUse s)
    (hlt : l.length < 2 ^ 32)
    (hlen : readSlot s (slotOf (portAddr name.offset)) = some (BitVec.ofNat 32 l.length))
    (hread : ∀ (j : Nat) (h : j < l.length),
      readSlot s (slotOf (portAddr (slot j).offset)) = some (BitVec.ofNat 32 l[j].toNat)) :
    ∃ w, runScript (.access (rd name) fun n => readElems slot (fun w => w.extractLsb' 0 k) 0 n.toNat []) s =
      .next ({ s with rdata := w }, l) := by
  rw [runScript_rd _ hu hlen, toNat_ofNat_of_lt hlt]
  exact runScript_readElems hu (fun j h => ⟨_, hread j h, elem_of_word hk _⟩) l.length 0 _ (Nat.zero_add _)

theorem runScript_getInt (hu : InUse s) : ∃ w, runScript getInt s = .next ({ s with rdata := w }, s.rint.toNat) := by
  have hv : (s.rint.extractLsb' 0 32).toNat + 2 ^ 32 * (s.rint.extractLsb' 32 32).toNat = s.rint.toNat := by
    rw [lowHalf_toNat, highHalf_toNat]
    omega
  rw [getInt, runScript_rd _ hu rfl, runScript_rd_rdata _ hu rfl, runScript, hv]
  exact ⟨_, rfl⟩

theorem runScript_getBits (hu : InUse s) (hwf : Memory.wf s = true) :
    ∃ w, runScript getBits s = .next ({ s with rdata := w }, s.bits) := by
  have hcap := capacities_le hu.1
  obtain ⟨hbits, -⟩ := Memory.wf_iff.mp hwf
  refine runScript_sequence (by decide) hu (by omega) rfl fun j h => ?_
  rw [slotOf_bitElem (by omega), readSlot_bitElem_of_lt h]

theorem runScript_getBytes (hu : InUse s) (hwf : Memory.wf s = true) :
    ∃ w, runScript getBytes s = .next ({ s with rdata := w }, s.bytes) := by
  have hcap := capacities_le hu.1
  obtain ⟨-, hbytes⟩ := Memory.wf_iff.mp hwf
  refine runScript_sequence (by decide) hu (by omega) rfl fun j h => ?_
  rw [slotOf_byteElem (by omega), readSlot_byteElem_of_lt h]

/-- `GETCOEF` reads `COEF` only where it holds a value (R14). -/
theorem runScript_getCoef (hu : InUse s) :
    ∃ w, runScript getCoef s = .next ({ s with rdata := w }, s.coef.map signed32) := by
  rw [getCoef, runScript_rd _ hu rfl, statusWord_bit_zero]
  obtain hc | ⟨c, hc⟩ := Option.eq_none_or_eq_some s.coef
  · have hvalid : s.valid = 0 := by rw [State.valid, hc]; rfl
    rw [hvalid, if_neg (by decide), runScript, hc]
    exact ⟨_, rfl⟩
  · have hvalid : s.valid = 1 := by rw [State.valid, hc]; rfl
    have hvalue : getCoefValue s.statusWord c = s.coef.map signed32 :=
      getcoefGivesTheOptionalResult s c fun c' h => Option.some.inj (hc.symm.trans h)
    rw [hvalid, if_pos rfl, runScript_rd_rdata (name := .coef) _ hu hc, hvalue]
    exact ⟨_, rfl⟩

end Sys2Proof.Machine

open Sys2Proof Sys2Proof.Machine

/-- Settles O60: the loads and the scripts that read, one lemma each. -/
theorem sparseLoadsAndGetters : Obligations.SparseLoadsAndGetters :=
  ⟨fun _ skip _ _ hu hf hl hhost => runSteps_ldBitsSkipping hu hf skip hl hhost,
    fun _ skip _ _ hu hf hl hhost => runSteps_ldBytesSkipping hu hf skip hl hhost,
    fun _ hu hwf => ⟨runScript_getInt hu, runScript_getBits hu hwf, runScript_getBytes hu hwf, runScript_getCoef hu⟩⟩

end


section
/-! SUPPORT. The two functions of the integer-to-bit converter on any number and any sequence (R70, R72), each by its
own turn: `integer_to_bits` halves, `bits_to_integer` doubles. -/

namespace Sys2Proof.Machine

@[simp] theorem integerToBits_zero (x : Nat) : integerToBits x 0 = [] := rfl

/-- One turn of the sequential form (R70). -/
theorem integerToBits_succ (x alpha : Nat) :
    integerToBits x (alpha + 1) = BitVec.ofNat 1 (x % 2) :: integerToBits (x / 2) alpha := by
  have hbit : BitVec.ofNat 1 x = BitVec.ofNat 1 (x % 2) := BitVec.eq_of_toNat_eq (by simp)
  simp [integerToBits, List.range_succ_eq_map, Nat.div_div_eq_div_mul, pow_succ', hbit]

theorem integerToBits_getElem_toNat {x alpha i : Nat} (h : i < (integerToBits x alpha).length) :
    (integerToBits x alpha)[i].toNat = x / 2 ^ i % 2 := by
  rw [getElem_integerToBits, BitVec.toNat_ofNat, pow_one]

theorem integerToBits_getD_toNat {x alpha i : Nat} (h : i < alpha) :
    ((integerToBits x alpha).getD i 0).toNat = x / 2 ^ i % 2 := by
  have hi : i < (integerToBits x alpha).length := by rwa [length_integerToBits]
  rw [List.getD_eq_getElem _ _ hi, integerToBits_getElem_toNat]

/-- R74: each turn of the one undoes a turn of the other. -/
theorem bitsToInteger_integerToBits (x alpha : Nat) : bitsToInteger (integerToBits x alpha) alpha = x % 2 ^ alpha := by
  induction alpha generalizing x with
  | zero => simp [Nat.mod_one]
  | succ n ih =>
    calc bitsToInteger (integerToBits x (n + 1)) (n + 1)
        = 2 * (x / 2 % 2 ^ n) + x % 2 := by simp [integerToBits_succ, ih]
      _ = x % 2 ^ (n + 1) := by rw [pow_succ', Nat.mod_mul, Nat.add_comm]

/-- R75, the other way round. -/
theorem integerToBits_bitsToInteger {l : List Bit} {alpha : Nat} (h : alpha ≤ l.length) :
    integerToBits (bitsToInteger l alpha) alpha = l.take alpha := by
  induction alpha generalizing l with
  | zero => rfl
  | succ n ih =>
    cases l with
    | nil => simp at h
    | cons b l =>
      have hb : b.toNat < 2 := b.isLt
      have hmod : (2 * bitsToInteger l n + b.toNat) % 2 = b.toNat := by omega
      have hdiv : (2 * bitsToInteger l n + b.toNat) / 2 = bitsToInteger l n := by omega
      rw [bitsToInteger_cons, integerToBits_succ, hmod, hdiv, ih (Nat.le_of_succ_le_succ h), BitVec.ofNat_toNat,
        BitVec.setWidth_eq, List.take_succ_cons]

/-- The sum of R72; an element that is not there counts as 0. -/
theorem bitsToInteger_eq_sum (l : List Bit) (alpha : Nat) :
    bitsToInteger l alpha = ∑ i ∈ Finset.range alpha, (l.getD i 0).toNat * 2 ^ i := by
  induction alpha generalizing l with
  | zero => rfl
  | succ n ih =>
    cases l with
    | nil => simp
    | cons b l =>
      have hshift : ∑ i ∈ Finset.range n, (l.getD i 0).toNat * 2 ^ (i + 1) =
          2 * ∑ i ∈ Finset.range n, (l.getD i 0).toNat * 2 ^ i := by
        rw [Finset.mul_sum]
        exact Finset.sum_congr rfl fun i _ => by ring
      rw [bitsToInteger_cons, ih, Finset.sum_range_succ', ← hshift]
      simp

theorem bitsToInteger_take (l : List Bit) (alpha : Nat) : bitsToInteger (l.take alpha) alpha = bitsToInteger l alpha := by
  rw [bitsToInteger, List.take_take, Nat.min_self, bitsToInteger]

end Sys2Proof.Machine

open Sys2Proof Sys2Proof.Machine

/-- Settles O44: `integerToBits_bitsToInteger`. -/
theorem inverseRoundTripOfTheBitConverter : Obligations.InverseRoundTripOfTheBitConverter :=
  fun _ _ h => integerToBits_bitsToInteger h

/-- Settles O48: the sum is the integer of the result, so the round trip gives it. -/
theorem bitsOfAnyInteger : Obligations.BitsOfAnyInteger := by
  intro x α
  have hsum := (bitsToInteger_eq_sum (integerToBits x α) α).symm.trans (bitsToInteger_integerToBits x α)
  exact ⟨length_integerToBits x α, fun _ h => integerToBits_getD_toNat h, rfl, integerToBits_succ x α, hsum⟩

/-- Settles O49: the sum, the bound, the elements not read and the doubling turn, one lemma each. -/
theorem integerOfAnyBits : Obligations.IntegerOfAnyBits := fun l α _ =>
  ⟨bitsToInteger_eq_sum l α, bitsToInteger_lt l α, (bitsToInteger_take l α).symm, fun b => bitsToInteger_cons b l α⟩

end


section
/-! SUPPORT. The outcomes of `I2BITS` and `BITS2I` from a running state, one equation each (R71, R73, R126). -/

namespace Sys2Proof.Machine

variable {s : State} {alpha : Nat}

theorem execI2bits_capacity (hf : Running s) (h : s.cfg.lmax < alpha) :
    exec (.i2bits alpha) s = .next (raise .capacity s) := by
  rw [execI2bits_running hf, if_pos h]

theorem execI2bits_stores (hf : Running s) (h : alpha ≤ s.cfg.lmax) :
    exec (.i2bits alpha) s = .next (setBits (integerToBits s.x.toNat alpha) s) := by
  rw [execI2bits_running hf, if_neg (Nat.not_lt.mpr h)]

theorem execBits2i_shortInput (hf : Running s) (h : s.bits.length < alpha) :
    exec (.bits2i alpha) s = .next (raise .shortInput s) := by
  rw [execBits2i_running hf, if_pos h]

theorem execBits2i_width (hf : Running s) (h : alpha ≤ s.bits.length) (hw : 64 < alpha) :
    exec (.bits2i alpha) s = .next (raise .width s) := by
  rw [execBits2i_running hf, if_neg (Nat.not_lt.mpr h), if_pos hw]

theorem execBits2i_stores (hf : Running s) (h : alpha ≤ s.bits.length) (hw : alpha ≤ 64) :
    exec (.bits2i alpha) s = .next (setRint (bitsToInteger s.bits alpha) s) := by
  rw [execBits2i_running hf, if_neg (Nat.not_lt.mpr h), if_neg (Nat.not_lt.mpr hw)]

/-- At most 64 bits fit `RINT` (R73). -/
theorem setRint_bitsToInteger_toNat (l : List Bit) (hw : alpha ≤ 64) :
    (setRint (bitsToInteger l alpha) s).rint.toNat = bitsToInteger l alpha :=
  toNat_ofNat_of_lt ((bitsToInteger_lt l alpha).trans_le (Nat.pow_le_pow_right (by decide) hw))

end Sys2Proof.Machine

open Sys2Proof Sys2Proof.Machine

/-- Settles O30: `decode_encode` for the word, then the two outcomes. -/
theorem i2bitsResult : Obligations.I2bitsResult := by
  intro s α hf
  refine ⟨fun h => decode_encode (i := .i2bits α) (decide_eq_true h), execI2bits_capacity hf, fun h => ?_⟩
  exact ⟨_, execI2bits_stores hf h, rfl, length_integerToBits _ _, fun _ => integerToBits_getElem_toNat⟩

/-- Settles O31: `decode_encode` for the word, then the three outcomes; the sum is `bitsToInteger_eq_sum`. -/
theorem bits2iResult : Obligations.Bits2iResult := by
  intro s α hf
  refine ⟨fun h => decode_encode (i := .bits2i α) (decide_eq_true h), execBits2i_shortInput hf,
    execBits2i_width hf, fun h hw => ⟨_, execBits2i_stores hf h hw, rfl, ?_⟩⟩
  rw [setRint_bitsToInteger_toNat _ hw, bitsToInteger_eq_sum]

/-- Settles O43: `BITS2I` finds in `BITS` what `I2BITS` left there, in a state that still runs. -/
theorem roundTripOfTheBitConverter : Obligations.RoundTripOfTheBitConverter := by
  refine ⟨bitsToInteger_integerToBits, fun s α hf hw hcap => ?_⟩
  have hlen : (integerToBits s.x.toNat α).length = α := length_integerToBits _ _
  have hrun : Running (setBits (integerToBits s.x.toNat α) s) := hf
  refine ⟨_, _, execI2bits_stores hf hcap, execBits2i_stores hrun hlen.ge hw, ?_, hlen, ?_⟩
  · rw [setRint_bitsToInteger_toNat _ hw, setBits_bits, bitsToInteger_integerToBits]
  · rw [State.err, setRint_fault, hrun]
    rfl

end

section
/-! SUPPORT. `integer_to_bytes` on any number: its elements, its turn and its sum (R80), and its place between the
bit converter and the packer (R82, R83): eight bits of the one sequence are one byte of the other. -/

namespace Sys2Proof.Machine

@[simp] theorem integerToBytes_zero (x : Nat) : integerToBytes x 0 = [] := rfl

/-- One turn of the sequential form (R80). -/
theorem integerToBytes_succ (x alpha : Nat) :
    integerToBytes x (alpha + 1) = BitVec.ofNat 8 (x % 256) :: integerToBytes (x / 256) alpha := by
  have hbyte : BitVec.ofNat 8 x = BitVec.ofNat 8 (x % 256) := BitVec.eq_of_toNat_eq (by simp)
  simp [integerToBytes, List.range_succ_eq_map, Nat.div_div_eq_div_mul, pow_succ', hbyte]

theorem integerToBytes_getElem_toNat {x alpha i : Nat} (h : i < (integerToBytes x alpha).length) :
    (integerToBytes x alpha)[i].toNat = x / 256 ^ i % 256 := by
  rw [getElem_integerToBytes, BitVec.toNat_ofNat]

theorem integerToBytes_getD_toNat {x alpha i : Nat} (h : i < alpha) :
    ((integerToBytes x alpha).getD i 0).toNat = x / 256 ^ i % 256 := by
  have hi : i < (integerToBytes x alpha).length := by rwa [length_integerToBytes]
  rw [List.getD_eq_getElem _ _ hi, integerToBytes_getElem_toNat]

/-- The lowest `n` digits of a number in any base make up the number modulo `base ^ n`. -/
theorem sum_digit_mul_pow (base x n : Nat) :
    ∑ i ∈ Finset.range n, x / base ^ i % base * base ^ i = x % base ^ n := by
  induction n with
  | zero => simp [Nat.mod_one]
  | succ n ih => rw [Finset.sum_range_succ, ih, Nat.mod_pow_succ, Nat.mul_comm]

/-- R72 on a sequence in two parts: the second part counts from `2 ^ l₁.length` on. -/
theorem bitsToInteger_append (l₁ l₂ : List Bit) (n : Nat) :
    bitsToInteger (l₁ ++ l₂) (l₁.length + n) =
      bitsToInteger l₁ l₁.length + 2 ^ l₁.length * bitsToInteger l₂ n := by
  induction l₁ with
  | nil => simp
  | cons b l₁ ih =>
    rw [List.cons_append, List.length_cons, Nat.add_right_comm, bitsToInteger_cons, bitsToInteger_cons, ih]
    ring

theorem bitsToInteger_integerToBits_append (x alpha n : Nat) (l : List Bit) :
    bitsToInteger (integerToBits x alpha ++ l) (alpha + n) = x % 2 ^ alpha + 2 ^ alpha * bitsToInteger l n := by
  have happ := bitsToInteger_append (integerToBits x alpha) l n
  rwa [length_integerToBits, bitsToInteger_integerToBits] at happ

/-- The bits of `x` from bit `m` on are those of `x div 2^m` (R70). -/
theorem integerToBits_add (x m n : Nat) :
    integerToBits x (m + n) = integerToBits x m ++ integerToBits (x / 2 ^ m) n := by
  simp [integerToBits, List.range_add, Nat.div_div_eq_div_mul, pow_add]

/-- One turn of the packer: eight bits of a number are packed into its low byte (R90). -/
theorem bitsToBytes_integerToBits_append (x : Nat) (l : List Bit) :
    bitsToBytes (integerToBits x 8 ++ l) = BitVec.ofNat 8 (x % 256) :: bitsToBytes l := by
  have hlen : (8 + l.length + 7) / 8 = (l.length + 7) / 8 + 1 := by omega
  have hbyte : bitsToInteger (integerToBits x 8 ++ l) 8 = x % 256 := bitsToInteger_integerToBits_append x 8 0 l
  have hdrop (k : Nat) : (integerToBits x 8 ++ l).drop (8 * (k + 1)) = l.drop (8 * k) := by
    rw [Nat.mul_succ, Nat.add_comm, ← List.drop_drop, List.drop_left' (length_integerToBits x 8)]
  simp [bitsToBytes, List.range_succ_eq_map, hlen, hbyte, hdrop]

/-- R83: a turn of `integer_to_bytes` is eight turns of `integer_to_bits` and one of the packer. -/
theorem integerToBytes_eq_bitsToBytes (x alpha : Nat) :
    integerToBytes x alpha = bitsToBytes (integerToBits x (8 * alpha)) := by
  induction alpha generalizing x with
  | zero => simp [bitsToBytes]
  | succ n ih =>
    calc integerToBytes x (n + 1)
        = BitVec.ofNat 8 (x % 256) :: bitsToBytes (integerToBits (x / 2 ^ 8) (8 * n)) := by
          simp [integerToBytes_succ, ih]
      _ = bitsToBytes (integerToBits x 8 ++ integerToBits (x / 2 ^ 8) (8 * n)) :=
          (bitsToBytes_integerToBits_append x _).symm
      _ = bitsToBytes (integerToBits x (8 * (n + 1))) := by
          rw [← integerToBits_add, Nat.mul_succ, Nat.add_comm]

/-- Horner's turn of the sum that a sequence of bytes stands for, least significant byte first. -/
theorem sum_getD_cons (v : Byte) (l : List Byte) (n : Nat) :
    ∑ i ∈ Finset.range (n + 1), ((v :: l).getD i 0).toNat * 256 ^ i =
      v.toNat + 256 * ∑ i ∈ Finset.range n, (l.getD i 0).toNat * 256 ^ i := by
  rw [Finset.sum_range_succ', Finset.mul_sum, Nat.add_comm]
  congr 1
  · simp
  · exact Finset.sum_congr rfl fun i _ => by rw [List.getD_cons_succ]; ring

/-- R82: eight bits of an unpacked sequence count as one digit in base 256; a byte that is not there counts as 0. -/
theorem bitsToInteger_bytesToBits (l : List Byte) (n : Nat) :
    bitsToInteger (bytesToBits l) (8 * n) = ∑ i ∈ Finset.range n, (l.getD i 0).toNat * 256 ^ i := by
  induction n generalizing l with
  | zero => rfl
  | succ n ih =>
    cases l with
    | nil => simp
    | cons v l =>
      have hbyte : v.toNat % 2 ^ 8 = v.toNat := Nat.mod_eq_of_lt v.isLt
      rw [bytesToBits_cons, Nat.mul_succ, Nat.add_comm, bitsToInteger_integerToBits_append, ih, hbyte, sum_getD_cons]
      norm_num

end Sys2Proof.Machine

open Sys2Proof Sys2Proof.Machine

/-- Settles O50: the elements are the digits in base 256, whose sum is `sum_digit_mul_pow`. -/
theorem bytesOfAnyInteger : Obligations.BytesOfAnyInteger := by
  intro x α
  refine ⟨length_integerToBytes x α, fun _ h => integerToBytes_getD_toNat h, rfl, integerToBytes_succ x α, ?_⟩
  rw [← sum_digit_mul_pow]
  exact Finset.sum_congr rfl fun i h => by rw [integerToBytes_getD_toNat (Finset.mem_range.mp h)]

/-- Settles O52: `integerToBytes_eq_bitsToBytes`. -/
theorem bytesOfAnIntegerArePackedBits : Obligations.BytesOfAnIntegerArePackedBits := integerToBytes_eq_bitsToBytes

end


section
/-! SUPPORT. The outcomes of `I2BYTES` from a running state, one equation each (R81). -/

namespace Sys2Proof.Machine

variable {s : State} {alpha : Nat}

theorem execI2bytes_capacity (hf : Running s) (h : s.cfg.nmax < alpha) :
    exec (.i2bytes alpha) s = .next (raise .capacity s) := by
  rw [execI2bytes_running hf, if_pos h]

theorem execI2bytes_stores (hf : Running s) (h : alpha ≤ s.cfg.nmax) :
    exec (.i2bytes alpha) s = .next (setBytes (integerToBytes s.x.toNat alpha) s) := by
  rw [execI2bytes_running hf, if_neg (Nat.not_lt.mpr h)]

end Sys2Proof.Machine

open Sys2Proof Sys2Proof.Machine

/-- Settles O32: `decode_encode` for the word, then the two outcomes. -/
theorem i2bytesResult : Obligations.I2bytesResult := by
  intro s α hf
  refine ⟨fun h => decode_encode (i := .i2bytes α) (decide_eq_true h), execI2bytes_capacity hf, fun h => ?_⟩
  exact ⟨_, execI2bytes_stores hf h, rfl, length_integerToBytes _ _, fun _ => integerToBytes_getElem_toNat⟩

/-- Settles O53: `BITS2I` finds in `BITS` the `8 * BYTES.length` bits that `BYTES2BITS` left there, and the first
`8 * n <= 64` of them fit `RINT`. -/
theorem integerOfBytesByTwoCommands : Obligations.IntegerOfBytesByTwoCommands := by
  intro s n hf hn hlen
  have hrun : Running (setBits (bytesToBits s.bytes) s) := hf
  have hbits : 8 * n ≤ (bytesToBits s.bytes).length := by rw [length_bytesToBits]; omega
  have hw : 8 * n ≤ 64 := by omega
  refine ⟨_, _, execBytes2bits_running hf, execBits2i_stores hrun hbits hw, ?_⟩
  rw [setRint_bitsToInteger_toNat _ hw, setBits_bits, bitsToInteger_bytesToBits]

end

section
/-! SUPPORT. The elements of a packed and of an unpacked sequence (R90, R92): byte `k` stands for the eight bits from
index `8k` on, and these for it. -/

namespace Sys2Proof.Machine

/-- R90: byte `k` is there where bit `8k` is. -/
theorem bitsToBytes_getElem? (l : List Bit) (k : Nat) :
    (bitsToBytes l)[k]? = l[8 * k]?.map fun _ => BitVec.ofNat 8 (bitsToInteger (l.drop (8 * k)) 8) := by
  by_cases h : 8 * k < l.length
  · have hk : k < (bitsToBytes l).length := by rw [length_bitsToBytes]; omega
    rw [List.getElem?_eq_getElem hk, List.getElem?_eq_getElem h, getElem_bitsToBytes, Option.map_some]
  · have hk : (bitsToBytes l).length ≤ k := by rw [length_bitsToBytes]; omega
    rw [List.getElem?_eq_none hk, List.getElem?_eq_none (Nat.not_lt.mp h), Option.map_none]

theorem bitsToBytes_getElem_toNat {l : List Bit} {k : Nat} (h : k < (bitsToBytes l).length) :
    (bitsToBytes l)[k].toNat = bitsToInteger (l.drop (8 * k)) 8 := by
  rw [getElem_bitsToBytes, toNat_ofNat_of_lt (bitsToInteger_lt _ 8)]

/-- The sum of R72 over the bits from index `m` on. -/
theorem bitsToInteger_drop_eq_sum (l : List Bit) (m alpha : Nat) :
    bitsToInteger (l.drop m) alpha = ∑ j ∈ Finset.range alpha, (l.getD (m + j) 0).toNat * 2 ^ j := by
  simp [bitsToInteger_eq_sum]

/-- R92: bit `j` of byte `k` stands at index `8k + j`. -/
theorem bytesToBits_getElem? (l : List Byte) (k : Nat) {j : Nat} (hj : j < 8) :
    (bytesToBits l)[8 * k + j]? = l[k]?.map fun v => BitVec.ofNat 1 (v.toNat / 2 ^ j) := by
  induction l generalizing k with
  | nil => simp
  | cons v l ih =>
    cases k with
    | zero => simp [List.getElem?_append_left, hj]
    | succ k =>
      have hidx : 8 * (k + 1) + j = (integerToBits v.toNat 8).length + (8 * k + j) := by
        rw [length_integerToBits]; omega
      rw [bytesToBits_cons, hidx, List.getElem?_append_right (Nat.le_add_right _ _), Nat.add_sub_cancel_left, ih,
        List.getElem?_cons_succ]

theorem bytesToBits_getElem_toNat {l : List Byte} {k : Nat} (h : k < (bytesToBits l).length) :
    (bytesToBits l)[k].toNat = (l.getD (k / 8) 0).toNat / 2 ^ (k % 8) % 2 := by
  have hbyte : k / 8 < l.length := by rw [length_bytesToBits] at h; omega
  have hbit := bytesToBits_getElem? l (k / 8) (Nat.mod_lt k (by decide : 8 > 0))
  rw [Nat.div_add_mod, List.getElem?_eq_getElem h, List.getElem?_eq_getElem hbyte, Option.map_some,
    Option.some.injEq] at hbit
  rw [hbit, List.getD_eq_getElem _ _ hbyte, BitVec.toNat_ofNat, pow_one]

end Sys2Proof.Machine

open Sys2Proof Sys2Proof.Machine

/-- Settles O51. -/
theorem bitsOfAnyBytes : Obligations.BitsOfAnyBytes := by
  intro l
  refine ⟨length_bytesToBits l, fun k hk => ?_⟩
  rw [← length_bytesToBits] at hk
  rw [List.getD_eq_getElem _ _ hk, bytesToBits_getElem_toNat]

/-- Settles O54: byte `k` is there with bit `8k` and is the sum of the eight bits; each of the eight bits is a
function of byte `k`. -/
theorem packingWorksOnGroupsOfEight : Obligations.PackingWorksOnGroupsOfEight := by
  refine ⟨fun l₁ l₂ k h => ?_, fun l₁ l₂ k j hj h => ?_⟩
  · have hsum : bitsToInteger (l₁.drop (8 * k)) 8 = bitsToInteger (l₂.drop (8 * k)) 8 := by
      simp only [bitsToInteger_drop_eq_sum, List.getD_eq_getElem?_getD]
      exact Finset.sum_congr rfl fun j hj => by rw [h j (Finset.mem_range.mp hj)]
    have hfirst : l₁[8 * k]? = l₂[8 * k]? := h 0 (by decide)
    rw [bitsToBytes_getElem?, bitsToBytes_getElem?, hsum, hfirst]
  · rw [bytesToBits_getElem? l₁ k hj, bytesToBits_getElem? l₂ k hj, h]

/-- Settles O33: the command stores the packed sequence, whose bytes are `bitsToInteger_drop_eq_sum`. -/
theorem bits2bytesResult : Obligations.Bits2bytesResult := by
  intro s hf
  refine ⟨decode_encode (i := .bits2bytes) rfl, _, execBits2bytes_running hf, rfl, length_bitsToBytes _,
    fun k h => ?_, fun hwf => ?_⟩
  · exact (bitsToBytes_getElem_toNat h).trans (bitsToInteger_drop_eq_sum _ _ _)
  · obtain ⟨hbits, -⟩ := Memory.wf_iff.mp hwf
    rw [Config.lmax] at hbits
    rw [setBytes_bytes, length_bitsToBytes]
    omega

/-- Settles O34: the command stores the unpacked sequence. -/
theorem bytes2bitsResult : Obligations.Bytes2bitsResult := by
  intro s hf
  refine ⟨decode_encode (i := .bytes2bits) rfl, _, execBytes2bits_running hf, rfl, length_bytesToBits _,
    fun k h => bytesToBits_getElem_toNat h, fun hwf => ?_⟩
  obtain ⟨-, hbytes⟩ := Memory.wf_iff.mp hwf
  rw [setBits_bits, length_bytesToBits]
  exact Nat.mul_le_mul_left 8 hbytes

end

section
/-! SUPPORT. The packer's two round trips (R94 to R96). Unpacking and packing runs byte by byte; packing and unpacking
first fills up the last byte with zeros, which packing does not see, and then runs eight bits by eight. -/

namespace Sys2Proof.Machine

/-- R96. -/
theorem bitsToBytes_bytesToBits (l : List Byte) : bitsToBytes (bytesToBits l) = l := by
  induction l with
  | nil => rfl
  | cons v l ih =>
    have hbyte : v.toNat % 256 = v.toNat := Nat.mod_eq_of_lt v.isLt
    rw [bytesToBits_cons, bitsToBytes_integerToBits_append, ih, hbyte, BitVec.ofNat_toNat, BitVec.setWidth_eq]

/-- R94: a sequence of whole groups of eight comes back. -/
theorem bytesToBits_bitsToBytes {l : List Bit} {n : Nat} (h : l.length = 8 * n) : bytesToBits (bitsToBytes l) = l := by
  induction n generalizing l with
  | zero =>
    obtain rfl : l = [] := List.eq_nil_of_length_eq_zero h
    rfl
  | succ n ih =>
    have hgroup : integerToBits (bitsToInteger l 8) 8 = l.take 8 := integerToBits_bitsToInteger (by omega)
    have hbyte : bitsToInteger l 8 % 256 = bitsToInteger l 8 := Nat.mod_eq_of_lt (bitsToInteger_lt l 8)
    have hrest : (l.drop 8).length = 8 * n := by rw [List.length_drop]; omega
    calc bytesToBits (bitsToBytes l)
        = bytesToBits (bitsToBytes (integerToBits (bitsToInteger l 8) 8 ++ l.drop 8)) := by
          rw [hgroup, List.take_append_drop]
      _ = integerToBits (bitsToInteger l 8) 8 ++ bytesToBits (bitsToBytes (l.drop 8)) := by
          rw [bitsToBytes_integerToBits_append, bytesToBits_cons, hbyte, toNat_ofNat_of_lt (bitsToInteger_lt l 8)]
      _ = l := by rw [ih hrest, hgroup, List.take_append_drop]

/-- Defaults put at the end are read like what is not there. -/
theorem getD_append_replicate {α : Type} (l : List α) (n i : Nat) (d : α) :
    (l ++ List.replicate n d).getD i d = l.getD i d := by
  obtain h | h := Nat.lt_or_ge i l.length
  · exact List.getD_append _ _ _ _ h
  · rw [List.getD_append_right _ _ _ _ h, List.getD_eq_default _ _ h, List.getD_eq_getElem?_getD,
      List.getElem?_getD_replicate_default_eq]

/-- Zeros that fill up the last byte change no byte. -/
theorem bitsToBytes_append_zeros {l : List Bit} {n : Nat} (h : (l.length + n + 7) / 8 = (l.length + 7) / 8) :
    bitsToBytes (l ++ List.replicate n 0) = bitsToBytes l := by
  refine List.ext_getElem (by simpa using h) fun k hk hk' => BitVec.eq_of_toNat_eq ?_
  simp only [bitsToBytes_getElem_toNat, bitsToInteger_drop_eq_sum, getD_append_replicate]

/-- R95: what packing and unpacking adds. -/
theorem bytesToBits_bitsToBytes_padded (l : List Bit) :
    bytesToBits (bitsToBytes l) = l ++ List.replicate (8 * ((l.length + 7) / 8) - l.length) 0 := by
  rw [← bitsToBytes_append_zeros (n := 8 * ((l.length + 7) / 8) - l.length) (by omega)]
  refine bytesToBits_bitsToBytes (n := (l.length + 7) / 8) ?_
  rw [List.length_append, List.length_replicate]
  omega

end Sys2Proof.Machine

open Sys2Proof Sys2Proof.Machine

/-- Settles O47. -/
theorem unpackThenPack : Obligations.UnpackThenPack := bitsToBytes_bytesToBits

/-- Settles O46: `BYTES2BITS` finds in `BYTES` what `BITS2BYTES` left there, in a state that still runs. -/
theorem packThenUnpack : Obligations.PackThenUnpack := by
  refine ⟨bytesToBits_bitsToBytes_padded, fun s hf => ?_⟩
  have hrun : Running (setBytes (bitsToBytes s.bits) s) := hf
  refine ⟨_, _, execBits2bytes_running hf, execBytes2bits_running hrun, bytesToBits_bitsToBytes_padded s.bits,
    fun h8 => ?_⟩
  have hback : bytesToBits (bitsToBytes s.bits) = s.bits :=
    bytesToBits_bitsToBytes (Nat.mul_div_cancel' (Nat.dvd_of_mod_eq_zero h8)).symm
  exact ⟨hback, congrArg List.length hback⟩

end

section
/-! SUPPORT. R90's loop. Its invariant: after the bits of `l`, byte `k` of the zeroed sequence holds what the closed
form reads from `l`; the next bit, at index `l.length`, adds to byte `l.length div 8` only. -/

namespace Sys2Proof.Machine

/-- The loop's last turn. -/
theorem packInto_concat (l : List Bit) (b : Bit) (i : Nat) (y : List Nat) :
    packInto (l ++ [b]) i y =
      (packInto l i y).modify ((i + l.length) / 8) fun v => v + b.toNat * 2 ^ ((i + l.length) % 8) := by
  induction l generalizing i y with
  | nil => rfl
  | cons a l ih =>
    rw [List.cons_append, packInto, ih, packInto, List.length_cons, Nat.add_right_comm, Nat.add_assoc]

/-- A bit put at the end counts where it is among the first `alpha` (R72). -/
theorem bitsToInteger_concat (l : List Bit) (b : Bit) (alpha : Nat) :
    bitsToInteger (l ++ [b]) alpha =
      bitsToInteger l alpha + if l.length < alpha then b.toNat * 2 ^ l.length else 0 := by
  induction alpha generalizing l with
  | zero => simp
  | succ n ih =>
    cases l with
    | nil => simp
    | cons a l =>
      simp only [List.cons_append, bitsToInteger_cons, ih, List.length_cons, Nat.add_lt_add_iff_right, pow_succ]
      split <;> ring

/-- The closed form's byte `k` when one bit more is there. -/
theorem bitsToInteger_drop_concat (l : List Bit) (b : Bit) (k : Nat) :
    bitsToInteger ((l ++ [b]).drop (8 * k)) 8 =
      bitsToInteger (l.drop (8 * k)) 8 + if l.length / 8 = k then b.toNat * 2 ^ (l.length % 8) else 0 := by
  obtain h | h := Nat.lt_or_ge l.length (8 * k)
  · rw [List.drop_eq_nil_of_le (by simpa using h), List.drop_eq_nil_of_le h.le, if_neg (by omega)]
    rfl
  · have hlast : (l.drop (8 * k)).length < 8 ↔ l.length / 8 = k := by rw [List.length_drop]; omega
    rw [List.drop_append_of_le_length h, bitsToInteger_concat]
    simp only [hlast]
    split
    · have hidx : (l.drop (8 * k)).length = l.length % 8 := by rw [List.length_drop]; omega
      rw [hidx]
    · rfl

/-- R90: the loop's invariant. -/
theorem packInto_zeros (l : List Bit) (n : Nat) :
    packInto l 0 (List.replicate n 0) = (List.range n).map fun k => bitsToInteger (l.drop (8 * k)) 8 := by
  induction l using List.reverseRecOn with
  | nil => simp [packInto]
  | append_singleton l b ih =>
    rw [packInto_concat, ih, Nat.zero_add]
    refine List.ext_getElem (by simp) fun k _ _ => ?_
    simp only [List.getElem_modify, List.getElem_map, List.getElem_range, bitsToInteger_drop_concat]
    split <;> rfl

end Sys2Proof.Machine

open Sys2Proof Sys2Proof.Machine

/-- Settles O45: the loop's invariant at its end; eight bits make a number below 256, so no byte overflows. -/
theorem packingIsAdditiveAccumulation : Obligations.PackingIsAdditiveAccumulation := by
  intro l
  rw [bitsToBytesLoop, packInto_zeros, bitsToBytes, List.map_map]
  exact List.map_congr_left fun k _ => (toNat_ofNat_of_lt (bitsToInteger_lt _ 8)).symm

end

section
/-! SUPPORT. The uniform sampler (R100 to R104): the candidate as a number of the window, when a window is accepted,
and the two outcomes of `C3B` from a running state. -/

namespace Sys2Proof.Machine

variable {s : State} {b0 b1 b2 : Byte} {q z : Nat}

/-! ## The candidate -/

/-- Taking 128 off `b2` is taking the window modulo `2^23`. -/
theorem candidate_eq_mod (b0 b1 b2 : Byte) :
    candidate b0 b1 b2 = (65536 * b2.toNat + 256 * b1.toNat + b0.toNat) % 2 ^ 23 := by
  have h0 := b0.isLt
  have h1 := b1.isLt
  have h2 := b2.isLt
  unfold candidate
  split <;> omega

/-- The windows of a candidate: its three digits to the base 256, the highest with or without 128 (R103). -/
theorem candidate_eq_iff (hz : z < 2 ^ 23) :
    candidate b0 b1 b2 = z ↔
      b0.toNat = z % 256 ∧ b1.toNat = z / 256 % 256 ∧ (b2.toNat = z / 65536 ∨ b2.toNat = z / 65536 + 128) := by
  have h0 := b0.isLt
  have h1 := b1.isLt
  have h2 := b2.isLt
  unfold candidate
  split <;> omega

theorem coeffFromThreeBytes_eq_none : coeffFromThreeBytes q b0 b1 b2 = none ↔ q ≤ candidate b0 b1 b2 := by
  simp [coeffFromThreeBytes]

/-! ## The code of a candidate in `COEF` -/

theorem zext32_high_eq_zero (hz : z < 2 ^ 23) : (zext32 z).extractLsb' 23 9 = 0 := by
  have htoNat : (zext32 z).toNat = z := toNat_ofNat_of_lt (by omega)
  rw [extractLsb'_eq_iff_field (by decide), field, htoNat, Nat.div_eq_of_lt hz]
  rfl

/-! ## The outcomes of `C3B` (R101) -/

theorem execC3b_accepts (hf : Running s) (h : candidate b0 b1 b2 < s.cfg.q) :
    exec (.c3b b0 b1 b2) s = .next (setCoef (some (zext32 (candidate b0 b1 b2))) s) := by
  rw [execC3b_running hf, coeffFromThreeBytes_eq_some.mpr ⟨h, rfl⟩, Option.map_some]

theorem execC3b_rejects (hf : Running s) (h : s.cfg.q ≤ candidate b0 b1 b2) :
    exec (.c3b b0 b1 b2) s = .next (setCoef none s) := by
  rw [execC3b_running hf, coeffFromThreeBytes_eq_none.mpr h, Option.map_none]

end Sys2Proof.Machine

open Sys2Proof Sys2Proof.Machine

/-- Settles O35: `decode_encode` for the word, then the two outcomes, with the candidate as the window modulo `2^23`. -/
theorem c3bResult : Obligations.C3bResult := by
  intro s b0 b1 b2 hf z
  have hz : candidate b0 b1 b2 = z := candidate_eq_mod b0 b1 b2
  have h23 := candidate_lt b0 b1 b2
  rw [← hz]
  exact ⟨decode_encode (i := .c3b b0 b1 b2) rfl,
    fun h => ⟨_, toNat_ofNat_of_lt (by omega), execC3b_accepts hf h⟩, execC3b_rejects hf⟩

/-- Settles O55: an accepted candidate is below `Q` and has 23 bits, so its code is not negative. -/
theorem uniformSamplesAreBelowQ : Obligations.UniformSamplesAreBelowQ := by
  constructor
  · intro q b0 b1 b2 z h
    obtain ⟨hq, rfl⟩ := coeffFromThreeBytes_eq_some.mp h
    exact hq
  · intro s t b0 b1 b2 c _ hf ht hc
    obtain rfl := next_unique ht (execC3b_running hf b0 b1 b2)
    obtain ⟨z, hsome, rfl⟩ := Option.map_eq_some_iff.mp hc
    obtain ⟨hq, rfl⟩ := coeffFromThreeBytes_eq_some.mp hsome
    have h23 := candidate_lt b0 b1 b2
    rw [signed32_zext32 (by omega)]
    exact ⟨by omega, by omega, zext32_high_eq_zero h23⟩

/-- Settles O56: below `Q` the sample is the candidate, whose windows `candidate_eq_iff` lists. -/
theorem windowsOfAUniformSample : Obligations.WindowsOfAUniformSample := by
  intro q z b0 b1 b2 hq hz
  rw [coeffFromThreeBytes_eq_some, ← candidate_eq_iff (by omega)]
  exact and_iff_right_of_imp fun h => h ▸ hz

/-- Settles O57: acceptance is `candidate < Q`, at its boundary; the four windows are evaluated. -/
theorem uniformBoundaryAtTheModulus : Obligations.UniformBoundaryAtTheModulus := by
  constructor
  · intro q b0 b1 b2 hq z
    have hz : candidate b0 b1 b2 = z := candidate_eq_mod b0 b1 b2
    rw [coeffFromThreeBytes_eq_some, coeffFromThreeBytes_eq_none, hz]
    exact ⟨fun h => ⟨by omega, h⟩, fun h => h.ge⟩
  · decide

end

section
/-! SUPPORT. The bounded sampler (R110 to R114): its value in each of the three cases, and the two outcomes of `CHB`
from a running state. -/

namespace Sys2Proof.Machine

variable {s : State}

/-! ## The function (R110) -/

theorem coeffFromHalfByte_two {b : Nat} (h : b < 15) : coeffFromHalfByte b 2 = some (2 - ((b % 5 : Nat) : Int)) :=
  if_pos ⟨rfl, h⟩

theorem coeffFromHalfByte_four {b : Nat} (h : b < 9) : coeffFromHalfByte b 4 = some (4 - (b : Int)) :=
  (if_neg (by omega)).trans (if_pos ⟨rfl, h⟩)

theorem coeffFromHalfByte_eq_none {b eta : Nat} :
    coeffFromHalfByte b eta = none ↔ ¬(eta = 2 ∧ b < 15) ∧ ¬(eta = 4 ∧ b < 9) := by
  unfold coeffFromHalfByte
  split
  · simp [*]
  · split <;> simp [*]

/-! ## The code of a sample in `COEF` -/

/-- A sample lies in `-4 .. 4` (R114), so its code stands for it. -/
theorem signed32_sext32_of_sample {b eta : Nat} {c : Int} (h : coeffFromHalfByte b eta = some c) :
    signed32 (sext32 c) = c := by
  obtain ⟨heta, hlo, hhi⟩ := coeffFromHalfByte_bounds h
  exact signed32_sext32 (by omega) (by omega)

/-! ## The outcomes of `CHB` (R111) -/

theorem execChb_accepts {b eta : Byte} {c : Int} (hf : Running s)
    (h : coeffFromHalfByte b.toNat eta.toNat = some c) :
    ∃ w : Word, signed32 w = c ∧ exec (.chb b eta) s = .next { s with coef := some w } := by
  refine ⟨sext32 c, signed32_sext32_of_sample h, ?_⟩
  rw [execChb_running hf, h]
  rfl

theorem execChb_rejects {b eta : Byte} (hf : Running s) (h : coeffFromHalfByte b.toNat eta.toNat = none) :
    exec (.chb b eta) s = .next { s with coef := none } := by
  rw [execChb_running hf, h]
  rfl

end Sys2Proof.Machine

open Sys2Proof Sys2Proof.Machine

/-- Settles O36: `decode_encode` for the word, then the outcome of `CHB` in each case of R110. -/
theorem chbResult : Obligations.ChbResult := by
  intro s b eta hf
  refine ⟨decode_encode (i := .chb b eta) rfl, fun heta hb => ?_, fun heta hb => ?_, fun h2 h4 => ?_⟩
  · exact execChb_accepts hf (heta ▸ coeffFromHalfByte_two hb)
  · exact execChb_accepts hf (heta ▸ coeffFromHalfByte_four hb)
  · exact execChb_rejects hf (coeffFromHalfByte_eq_none.mpr ⟨h2, h4⟩)

/-- Settles O59: `coeffFromHalfByte_bounds`, carried to `COEF` by the sample's code. -/
theorem boundedSamplesAreBounded : Obligations.BoundedSamplesAreBounded := by
  refine ⟨fun _ _ _ => coeffFromHalfByte_bounds, ?_⟩
  intro s t b eta w hf ht hw
  obtain rfl := next_unique ht (execChb_running hf b eta)
  obtain ⟨c, hc, rfl⟩ := Option.map_eq_some_iff.mp hw
  obtain ⟨heta, hlo, hhi⟩ := coeffFromHalfByte_bounds hc
  rw [signed32_sext32_of_sample hc]
  exact ⟨by omega, by omega, hlo, hhi⟩

/-- Settles O58: the tables and the counts are evaluated; every `b` beyond a table is rejected by R110's test on `b`. -/
theorem theTwoBoundedMaps : Obligations.TheTwoBoundedMaps := by
  refine ⟨by decide, by decide, fun b hb => ?_, fun b hb => ?_, by decide, by decide⟩
  · exact coeffFromHalfByte_eq_none.mpr ⟨by omega, by omega⟩
  · exact coeffFromHalfByte_eq_none.mpr ⟨by omega, by omega⟩

end

section
/-! SUPPORT. Fault entry and the fault table (R120, R124 to R127): what a fault leaves behind, and under which
condition each cause is raised. -/

namespace Sys2Proof.Machine

variable {s t : State} {i : Instr} {slot : Slot} {v : Word} {c : Cause}

/-! ## Fault entry (R125) -/

/-- A command that ends with a fault did nothing else. -/
theorem exec_eq_raise (hf : Running s) (e : exec i s = .next t) (hc : t.fault = some c) : t = raise c s := by
  obtain rfl | ⟨-, c', rfl⟩ | ⟨-, l, rfl⟩ | ⟨-, l, rfl⟩ | ⟨-, n, rfl⟩ | ⟨-, o, rfl⟩ := exec_cases e
  case inr.inl => rw [Option.some.inj hc]
  all_goals cases hf.symm.trans hc

/-- A host write that ends with a fault did nothing else. -/
theorem writeSlot_eq_raise (hf : Running s) (e : writeSlot slot v s = .next t) (hc : t.fault = some c) :
    t = raise c s := by
  obtain rfl | ⟨c', rfl⟩ | ⟨-, x, rfl⟩ | ⟨-, l, rfl⟩ | ⟨-, l, rfl⟩ | ⟨-, i, -, e⟩ := writeSlot_cases e
  case inr.inl => rw [Option.some.inj hc]
  case inr.inr.inr.inr.inr => exact exec_eq_raise hf e hc
  all_goals cases hf.symm.trans hc

/-- A cycle that ends with a fault is a host write, which did nothing else (R124, R125). -/
theorem step_eq_raise (hf : Running s) (h : step s = .next t) (hc : t.fault = some c) :
    t = raise c (atEdge s) ∧ s.nextCycle.sel = true ∧ s.nextCycle.we = true ∧
      writeSlot (slotOf s.nextCycle.addr) s.nextCycle.wdata (atEdge s) = .next (raise c (atEdge s)) := by
  cases hr : s.nextCycle.rst with
  | true =>
    obtain ⟨hw, -⟩ := step_cases h
    obtain rfl := next_unique h (step_reset hw hr)
    cases hc
  | false =>
    obtain ⟨-, -, -, hfault, -, -⟩ | ⟨hs, hwe, -, e⟩ := step_sameBlock_or_write hr h
    · cases (hfault.symm.trans hf).symm.trans hc
    · obtain rfl := writeSlot_eq_raise (s := atEdge s) hf e hc
      exact ⟨rfl, hs, hwe, e⟩

/-! ## The fault table (R124, with the priorities of R126) -/

/-- The next cycle's pins carry a write to the slot `a`. -/
def WritesTo (s : State) (a : Slot) : Prop :=
  s.nextCycle.sel = true ∧ s.nextCycle.we = true ∧ slotOf s.nextCycle.addr = a

/-- The next cycle's pins carry a `CMD` write of a word of the command `i`. -/
def WritesCommand (s : State) (i : Instr) : Prop := WritesTo s .cmd ∧ decode s.nextCycle.wdata = .ok i

/-- The rows of R124 with the cause `c`, one disjunct a row. -/
def FaultRows (s : State) : Cause → Prop
  | .illegalCmd => WritesTo s .cmd ∧ ∃ r, decode s.nextCycle.wdata = .error r
  | .capacity =>
    (∃ α, WritesCommand s (.i2bits α) ∧ s.cfg.lmax < α) ∨ (∃ α, WritesCommand s (.i2bytes α) ∧ s.cfg.nmax < α) ∨
      (WritesTo s .blen ∧ s.cfg.lmax < s.nextCycle.wdata.toNat) ∨
      (WritesTo s .nlen ∧ s.cfg.nmax < s.nextCycle.wdata.toNat)
  | .shortInput => ∃ α, WritesCommand s (.bits2i α) ∧ s.bits.length < α
  | .width => ∃ α, WritesCommand s (.bits2i α) ∧ α ≤ s.bits.length ∧ 64 < α
  | .indexRange =>
    ∃ i, (WritesTo s (.bitElem i) ∧ s.bits.length ≤ i) ∨ (WritesTo s (.byteElem i) ∧ s.bytes.length ≤ i)
  | .elemRange =>
    ∃ i, (WritesTo s (.bitElem i) ∧ i < s.bits.length ∧ 1 < s.nextCycle.wdata.toNat) ∨
      (WritesTo s (.byteElem i) ∧ i < s.bytes.length ∧ 255 < s.nextCycle.wdata.toNat)

/-- All the ways in which a command faults (R71, R73, R81). -/
theorem exec_raise_cases (hf : Running s) (e : exec i s = .next (raise c s)) :
    (∃ α, i = .i2bits α ∧ c = .capacity ∧ s.cfg.lmax < α) ∨
      (∃ α, i = .i2bytes α ∧ c = .capacity ∧ s.cfg.nmax < α) ∨
      (∃ α, i = .bits2i α ∧ c = .shortInput ∧ s.bits.length < α) ∨
      (∃ α, i = .bits2i α ∧ c = .width ∧ α ≤ s.bits.length ∧ 64 < α) := by
  have fault_eq {u} (e' : exec i s = .next u) : some c = u.fault := congrArg State.fault (next_unique e e')
  cases i with
  | i2bits α =>
    rcases Nat.lt_or_ge s.cfg.lmax α with h | h
    · cases fault_eq (execI2bits_capacity hf h)
      exact .inl ⟨α, rfl, rfl, h⟩
    · cases (fault_eq (execI2bits_stores hf h)).trans hf
  | i2bytes α =>
    rcases Nat.lt_or_ge s.cfg.nmax α with h | h
    · cases fault_eq (execI2bytes_capacity hf h)
      exact .inr (.inl ⟨α, rfl, rfl, h⟩)
    · cases (fault_eq (execI2bytes_stores hf h)).trans hf
  | bits2i α =>
    rcases Nat.lt_or_ge s.bits.length α with h | h
    · cases fault_eq (execBits2i_shortInput hf h)
      exact .inr (.inr (.inl ⟨α, rfl, rfl, h⟩))
    · rcases Nat.lt_or_ge 64 α with hw | hw
      · cases fault_eq (execBits2i_width hf h hw)
        exact .inr (.inr (.inr ⟨α, rfl, rfl, h, hw⟩))
      · cases (fault_eq (execBits2i_stores hf h hw)).trans hf
  | bits2bytes => cases (fault_eq (execBits2bytes_running hf)).trans hf
  | bytes2bits => cases (fault_eq (execBytes2bits_running hf)).trans hf
  | c3b b0 b1 b2 => cases (fault_eq (execC3b_running hf b0 b1 b2)).trans hf
  | chb b eta => cases (fault_eq (execChb_running hf b eta)).trans hf

/-- A command that faults stands in the table. -/
theorem faultRows_of_exec (hf : Running s) (hi : WritesCommand s i)
    (e : exec i (atEdge s) = .next (raise c (atEdge s))) : FaultRows s c := by
  obtain ⟨α, rfl, rfl, h⟩ | ⟨α, rfl, rfl, h⟩ | ⟨α, rfl, rfl, h⟩ | ⟨α, rfl, rfl, h⟩ :=
    exec_raise_cases (s := atEdge s) hf e
  · exact .inl ⟨α, hi, h⟩
  · exact .inr (.inl ⟨α, hi, h⟩)
  · exact ⟨α, hi, h⟩
  · exact ⟨α, hi, h⟩

/-- A host write that faults stands in the table. -/
theorem faultRows_of_writeSlot (hf : Running s) (ha : WritesTo s slot)
    (e : writeSlot slot s.nextCycle.wdata (atEdge s) = .next (raise c (atEdge s))) : FaultRows s c := by
  have fault_eq {u} (e' : writeSlot slot s.nextCycle.wdata (atEdge s) = .next u) : some c = u.fault :=
    congrArg State.fault (next_unique e e')
  cases slot with
  | cmd =>
    obtain ⟨i, hi, e'⟩ | ⟨r, hd, e'⟩ := performCommand_cases s.nextCycle.wdata (atEdge s)
    · exact faultRows_of_exec hf ⟨ha, hi⟩ (e'.symm.trans e)
    · cases fault_eq e'
      exact ⟨ha, r, hd⟩
  | blen =>
    obtain ⟨h, e'⟩ | ⟨-, e'⟩ := writeBlen_cases s.nextCycle.wdata (atEdge s)
    · cases fault_eq (congrArg Host.Outcome.next e')
      exact .inr (.inr (.inl ⟨ha, h⟩))
    · cases (fault_eq (congrArg Host.Outcome.next e')).trans hf
  | nlen =>
    obtain ⟨h, e'⟩ | ⟨-, e'⟩ := writeNlen_cases s.nextCycle.wdata (atEdge s)
    · cases fault_eq (congrArg Host.Outcome.next e')
      exact .inr (.inr (.inr ⟨ha, h⟩))
    · cases (fault_eq (congrArg Host.Outcome.next e')).trans hf
  | bitElem j =>
    obtain ⟨h, e'⟩ | ⟨h, hv, e'⟩ | ⟨-, -, e'⟩ := writeBitElem_cases j s.nextCycle.wdata (atEdge s)
    · cases fault_eq (congrArg Host.Outcome.next e')
      exact ⟨j, .inl ⟨ha, h⟩⟩
    · cases fault_eq (congrArg Host.Outcome.next e')
      exact ⟨j, .inl ⟨ha, h, hv⟩⟩
    · cases (fault_eq (congrArg Host.Outcome.next e')).trans hf
  | byteElem j =>
    obtain ⟨h, e'⟩ | ⟨h, hv, e'⟩ | ⟨-, -, e'⟩ := writeByteElem_cases j s.nextCycle.wdata (atEdge s)
    · cases fault_eq (congrArg Host.Outcome.next e')
      exact ⟨j, .inr ⟨ha, h⟩⟩
    · cases fault_eq (congrArg Host.Outcome.next e')
      exact ⟨j, .inr ⟨ha, h, hv⟩⟩
    · cases (fault_eq (congrArg Host.Outcome.next e')).trans hf
  | xLo | xHi | status | rintLo | rintHi | coef | unmapped => cases (fault_eq rfl).trans hf

/-! ## The table holds of the step, in both directions -/

section
variable (hu : InUse s) (hf : Running s) (hr : s.nextCycle.rst = false)
include hu hf hr

theorem step_of_writesTo (ha : WritesTo s slot) : step s = writeSlot slot s.nextCycle.wdata (atEdge s) := by
  obtain ⟨hs, hwe, rfl⟩ := ha
  exact step_write_running hu hf hr hs hwe

theorem step_of_writesCommand (hi : WritesCommand s i) : step s = exec i (atEdge s) := by
  obtain ⟨ha, hd⟩ := hi
  exact (step_of_writesTo hu hf hr ha).trans (performCommand_ok hd)

/-- Under each row of the table the cycle ends with the row's cause. -/
theorem step_of_faultRows (hrow : FaultRows s c) : step s = .next (raise c (atEdge s)) := by
  have hf' : Running (atEdge s) := hf
  have write {a} (ha : WritesTo s a) := step_of_writesTo hu hf hr ha
  have command {i} (hi : WritesCommand s i) := step_of_writesCommand hu hf hr hi
  cases c with
  | illegalCmd =>
    obtain ⟨ha, r, hd⟩ := hrow
    exact (write ha).trans (performCommand_error hd)
  | capacity =>
    obtain ⟨α, hi, h⟩ | ⟨α, hi, h⟩ | ⟨ha, h⟩ | ⟨ha, h⟩ := hrow
    · exact (command hi).trans (execI2bits_capacity hf' h)
    · exact (command hi).trans (execI2bytes_capacity hf' h)
    · exact (write ha).trans (congrArg Host.Outcome.next (writeBlen_capacity (s := atEdge s) h))
    · exact (write ha).trans (congrArg Host.Outcome.next (writeNlen_capacity (s := atEdge s) h))
  | shortInput =>
    obtain ⟨α, hi, h⟩ := hrow
    exact (command hi).trans (execBits2i_shortInput hf' h)
  | width =>
    obtain ⟨α, hi, h, hw⟩ := hrow
    exact (command hi).trans (execBits2i_width hf' h hw)
  | indexRange =>
    obtain ⟨i, ⟨ha, h⟩ | ⟨ha, h⟩⟩ := hrow
    · exact (write ha).trans (congrArg Host.Outcome.next (writeBitElem_indexRange (s := atEdge s) h))
    · exact (write ha).trans (congrArg Host.Outcome.next (writeByteElem_indexRange (s := atEdge s) h))
  | elemRange =>
    obtain ⟨i, ⟨ha, h, hv⟩ | ⟨ha, h, hv⟩⟩ := hrow
    · exact (write ha).trans (congrArg Host.Outcome.next (writeBitElem_elemRange (s := atEdge s) h hv))
    · exact (write ha).trans (congrArg Host.Outcome.next (writeByteElem_elemRange (s := atEdge s) h hv))

/-- The table is all the faults there are, each under its condition (R124, R126). -/
theorem step_fault_iff (h : step s = .next t) (c : Cause) : t.fault = some c ↔ FaultRows s c := by
  constructor
  · intro hc
    obtain ⟨-, hs, hwe, e⟩ := step_eq_raise hf h hc
    exact faultRows_of_writeSlot hf ⟨hs, hwe, rfl⟩ e
  · intro hrow
    obtain rfl := next_unique h (step_of_faultRows hu hf hr hrow)
    rfl

end

end Sys2Proof.Machine

open Sys2Proof Sys2Proof.Machine

/-- Settles O41: `step_fault_iff` for each cause, and the frame by `step_eq_raise`. -/
theorem faultsAreThoseOfTheTable : Obligations.FaultsAreThoseOfTheTable := by
  refine ⟨⟨rfl, rfl, rfl, rfl, rfl, rfl⟩, fun s t hu hf hr h => ?_⟩
  have table := step_fault_iff hu hf hr h
  refine ⟨table .illegalCmd, table .capacity, table .shortInput, table .width, table .indexRange, table .elemRange,
    fun hne => ?_⟩
  obtain ⟨c, hc⟩ := Option.ne_none_iff_exists'.mp hne
  obtain ⟨rfl, -⟩ := step_eq_raise hf h hc
  rfl

/-- Settles O42: the state after fault entry is known exactly (`step_eq_raise`). -/
theorem faultsArePrecise : Obligations.FaultsArePrecise := by
  intro s t c hf h hc
  obtain ⟨rfl, -⟩ := step_eq_raise hf h hc
  exact ⟨rfl, rfl, ⟨rfl, rfl, rfl, rfl, rfl, rfl⟩, rfl⟩

/-- Settles O3: the cycle follows the pins as in the running state (`cycleFollowsThePins`), and `MemWrite` is ignored
while `ERR = 1`. -/
theorem faultedBlockIsFrozen : Obligations.FaultedBlockIsFrozen := by
  intro s c hu hc hr hs
  obtain ⟨-, hread, hwrite⟩ := cycleFollowsThePins s hu hr
  constructor
  · intro hwe
    obtain ⟨e, -⟩ := hwrite hs hwe
    exact e.trans (hostWrite_faulted (s := atEdge s) hc ..)
  · intro hwe
    obtain ⟨e, hnext⟩ := hread hs hwe
    exact ⟨_, e, hnext _ e⟩

/-- Settles O40: a reserved word faults; a decoded command ends with a fault, which only three commands raise
(`exec_raise_cases`), or without one, and then `VALID` tells a sampler's value from "no value". -/
theorem threeOutcomesOfACommand : Obligations.ThreeOutcomesOfACommand := by
  intro s hu hf hr hs hwe ha sampler mayFault
  cases hd : decode s.nextCycle.wdata with
  | error r =>
    have e := (step_cmd_running hu hf hr hs hwe ha).trans (performCommand_error hd)
    exact ⟨_, e, .inr (.inr ⟨rfl, rfl, .inl ⟨r, rfl⟩⟩)⟩
  | ok i =>
    have hstep := step_cmd_decoded hu hf hr hs hwe ha hd
    obtain ⟨t, e, -⟩ := exec_next i (atEdge s)
    refine ⟨t, hstep.trans e, ?_⟩
    cases hc : t.fault with
    | some c =>
      obtain rfl := exec_eq_raise (s := atEdge s) hf e hc
      have hmay : mayFault i = true := by
        obtain ⟨α, rfl, -⟩ | ⟨α, rfl, -⟩ | ⟨α, rfl, -⟩ | ⟨α, rfl, -⟩ := exec_raise_cases (s := atEdge s) hf e <;> rfl
      exact .inr (.inr ⟨rfl, rfl, .inr ⟨i, rfl, hmay⟩⟩)
    | none =>
      have herr : t.err = 0 := by simp [State.err, hc]
      by_cases hsampler : sampler i = true ∧ t.coef = none
      · obtain ⟨hi, hcoef⟩ := hsampler
        exact .inr (.inl ⟨herr, by simp [State.valid, hcoef], i, rfl, hi⟩)
      · refine .inl ⟨herr, i, rfl, e, fun hi => ?_⟩
        have hcoef : t.coef ≠ none := fun hcoef => hsampler ⟨hi, hcoef⟩
        simp [State.valid, Option.isSome_iff_ne_none, hcoef]

end

section
/-! SUPPORT. What every cycle does to the host's list and to the block's being in use, and that only a reset edge
leaves the faulted state (R44, R128, R140, R143). -/

namespace Sys2Proof.Machine

variable {s t : State}

@[simp] theorem hostRead_host (slot : Slot) (s : State) : (hostRead slot s).host = s.host := by
  obtain ⟨w, _, e⟩ | ⟨_, _, e⟩ := hostRead_cases slot s <;> rw [e] <;> rfl

@[simp] theorem hostRead_ready (slot : Slot) (s : State) : (hostRead slot s).ready = s.ready := by
  obtain ⟨w, _, e⟩ | ⟨_, _, e⟩ := hostRead_cases slot s <;> rw [e] <;> rfl

/-- Every cycle takes itself, and nothing more, off the host's list (R44; log 1), and a block that has been reset
stays so (R141; log 6). -/
theorem step_host_ready (h : step s = .next t) : t.host = s.host.tail ∧ (s.ready = true → t.ready = true) := by
  obtain ⟨-, ⟨-, rfl⟩ | ⟨-, -, rfl⟩ | ⟨-, -, -, -, e⟩ | ⟨-, -, -, -, rfl⟩⟩ := step_cases h
  · exact ⟨rfl, fun _ => rfl⟩
  · exact ⟨rfl, id⟩
  · obtain ⟨u, e', hhost, -, hready, -⟩ := hostWrite_next (slotOf s.nextCycle.addr) s.nextCycle.wdata (atEdge s)
    obtain rfl := next_unique e' e
    exact ⟨hhost, hready.trans⟩
  · exact ⟨hostRead_host .., (hostRead_ready _ (takeCycle s)).trans⟩

/-- A block in use stays in use. -/
theorem InUse.step (hu : InUse s) (h : step s = .next t) : InUse t := by
  obtain ⟨hw, hd⟩ := hu
  obtain ⟨-, hready⟩ := step_host_ready h
  exact ⟨step_cfg h ▸ hw, hready hd⟩

/-- Of a faulted block no cycle but reset changes an element (R127, R128). -/
theorem step_faulted_sameBlock {c : Cause} (hc : s.fault = some c) (hr : s.nextCycle.rst = false)
    (h : step s = .next t) : SameBlock s t := by
  obtain hb | ⟨-, -, hf, -⟩ := step_sameBlock_or_write hr h
  · exact hb
  · cases hf.symm.trans hc

theorem running_reset : Running State.reset := rfl

end Sys2Proof.Machine

open Sys2Proof Sys2Proof.Machine

/-- Settles O2: the reset edge by `step_reset`; every other cycle leaves a faulted block as it is. -/
theorem onlyResetLeavesTheFaultedState : Obligations.OnlyResetLeavesTheFaultedState := by
  refine ⟨fun s hw hr => step_reset hw hr, fun s t c hc hr h => ?_⟩
  obtain ⟨-, -, -, hfault, -, -⟩ := step_faulted_sameBlock hc hr h
  exact hfault.symm.trans hc

/-- Settles O5: a cycle of a block that has been reset is never refused (`step_next`). -/
theorem everyCycleCompletes : Obligations.EveryCycleCompletes := by
  intro s hu
  obtain ⟨hw, hd⟩ := id hu
  obtain ⟨t, h⟩ := step_next hw (.inr (.inr hd))
  obtain ⟨hhost, -⟩ := step_host_ready h
  exact ⟨t, h, hhost, step_cfg h, hu.step h⟩

/-- Settles O39: on the reset values `X = 0` and `BITS`, `BYTES` empty, 8 bits fit the buffer and 1 bit is missing. -/
theorem commandsOnTheResetState : Obligations.CommandsOnTheResetState := by
  have zeros : integerToBits State.reset.x.toNat 8 = [0, 0, 0, 0, 0, 0, 0, 0] := by decide
  refine ⟨?_, execBits2bytes_running running_reset, execBits2i_shortInput running_reset (by decide)⟩
  rw [execI2bits_stores running_reset (by decide), zeros]
  rfl

end
